-- ==== Sys2Proof/Word.lean ====
section
/-!
DEFINITION. The widths of the WOU link block's bit fields (spec/00_scope.md R8, R5).
Only the types: every function on them stands where a repair may mend it.
-/

namespace Sys2Proof

/-- A byte, 0x00..0xFF (R8); also an 8-bit sequence number (R9). -/
abbrev Byte := BitVec 8

/-- A 16-bit host operand field (R82) and the 16-bit CRC (R101). -/
abbrev Half := BitVec 16

/-- The 32-bit CRC-error counter (R33). -/
abbrev Count := BitVec 32

/-- A 14-bit register address, 0..16383 (R5 ADDR_WIDTH, R77). -/
abbrev RegAddr := BitVec 14

end Sys2Proof
end

