-- ==== Sys2Proof/Config.lean ====
section
/-!
DEFINITION. The implementation parameters of spec/00_scope.md: those the source fixes (R5, R7) as
constants, and those it leaves OPEN (R6) as the record `Params`, which the model takes as an argument:
the argument travels in `State.params`, no step writes it, and every statement about all states holds
for every value R6 allows (notes/assumptions/1.md).
-/

namespace Sys2Proof.Config

/-- WINDOW_SIZE: maximum frames outstanding (R5). -/
abbrev windowSize : Nat := 64

/-- STORE_SIZE: slots of the frame store (R5; C1 keeps 255). -/
abbrev storeSize : Nat := 255

/-- MAX_DSIZE: maximum frame payload and maximum record length (R5). -/
abbrev maxDSize : Nat := 256

/-- HDR_SIZE: frame header bytes (R5). -/
abbrev hdrSize : Nat := 4

/-- CRC_WIDTH: CRC bytes of a frame (R6). -/
abbrev crcWidth : Nat := 2

/-- REC_HDR: header bytes of a command record (R7, R75). -/
abbrev recHdr : Nat := 3

/-- SHADOW_SIZE: bytes of the register space and of its shadow (R5). -/
abbrev shadowSize : Nat := 16384

/-- INIT_SEQ: the initial value of Sn, Sb, Sm and Rn (R6, D14). -/
def initSeq : Byte := 0x00#8

/-- The largest value of the CRC-error counter, which saturates there (R10, R33). -/
def crcCountMax : Count := 0xFFFFFFFF#32

end Sys2Proof.Config

namespace Sys2Proof

/-- The OPEN parameters of one instance (R6, D22, D26, D27): fixed for the life of the instance. -/
structure Params where
  /-- MAX_RETX, 0..255: the most recovery rounds between two advances of Sb (R169). -/
  maxRetx : Byte
  /-- CRC_HEALTH_THRESHOLD, 1..2^32-1 (R6, R34): the invariant holds it to that range (`Machine.ParamsOk`). -/
  crcHealthThreshold : Count
  /-- RT_SEQ: the SEQ byte of an outbound realtime frame (R195). -/
  rtSeq : Byte
  deriving DecidableEq, Repr

/-- The values R6 and spec/95_test_vectors.md give where they give one: MAX_RETX 3 ("vectors use 3"),
a CRC_HEALTH_THRESHOLD "larger than any counter value reached", RT_SEQ 0x00.
DESIGN CHOICE (notes/assumptions/1.md): no statement needs more of them than R6's ranges. -/
def Params.ofVectors : Params :=
  { maxRetx := 3#8, crcHealthThreshold := 0xFFFFFFFF#32, rtSeq := 0x00#8 }

end Sys2Proof
end

