-- ==== Sys2Proof/Port.lean ====
section
/-!
DEFINITION. The operand types of the operations and what the block's ports present to it
(spec/30_encoding.md R70, R73, R76, R82, R92, R94, R130).
-/

namespace Sys2Proof

/-- Addressing mode of a record (R75 bit 6): FIXED_ADDRESS / FIFO, or ADDRESS_INCREMENT. -/
inductive Mode where
  | fifo
  | ai
  deriving DecidableEq, Repr

/-- The three tags of a frame header (R73). -/
inductive Tag where
  | cmd
  | ack
  | mailbox
  deriving DecidableEq, Repr

/-- A record request as the host delivers it (R130): READ with a length, or WRITE with its data,
whose length is the request's length. Addresses and lengths are the 16-bit fields of R83. -/
inductive Request where
  | read (mode : Mode) (addr n : Half)
  | write (mode : Mode) (addr : Half) (data : List Byte)
  deriving DecidableEq, Repr

/-- A pseudo-operation of the program syntax with its operands (R94). -/
inductive Line where
  | wr (addr : Half) (data : List Byte)
  | rd (addr n : Half)
  | push (addr : Half) (data : List Byte)
  | wrsync (addr : Half) (data : List Byte)
  | rdsync (addr n : Half)
  | poll (bytes : List Byte)
  deriving DecidableEq, Repr

/-- What a port presents for one step. `host` is one complete host word with its delivered length (R82);
`rx`, `timeout`, `ioerr`, `txrt` and `por` are the signals of R92; `wire` is a chunk of received bytes
(R111); `record` is one command record in the bytes of R75; `line` is a pseudo-operation, which has no
encoding of its own (R94). DESIGN CHOICE (notes/assumptions/2.md, 10.md, 11.md, 12.md). -/
inductive Input where
  | host (w : List Byte)
  | record (r : List Byte)
  | wire (bs : List Byte)
  | rx (b : Byte)
  | timeout
  | ioerr
  | txrt
  | por
  | line (l : Line)
  deriving DecidableEq, Repr

/-- Why the decoder rejects what a port presents: a byte string given as one command record (R75) is too
short for its own header, or has bytes behind its end. Every other input decodes. -/
inductive Reject where
  | recordTruncated
  | recordTrailing
  deriving DecidableEq, Repr

end Sys2Proof
end

