-- ==== Sys2Proof/Machine/Codec.lean ====
section
/-!
DEFINITION. The frame codec's pure functions (spec/40_frame_codec.md): CRC, ENCODE, header validity and
the fields of a complete candidate frame; and the byte-order helpers every encoding uses (R55).
-/

namespace Sys2Proof.Machine

/-! ### Byte order: most significant byte first (R55) -/

/-- The two bytes of a 16-bit field, most significant first. -/
def be16 (v : Half) : List Byte := [v.extractLsb' 8 8, v.extractLsb' 0 8]

/-- The four bytes of a 32-bit field, most significant first. -/
def be32 (v : Count) : List Byte :=
  [v.extractLsb' 24 8, v.extractLsb' 16 8, v.extractLsb' 8 8, v.extractLsb' 0 8]

/-- The 16-bit field whose bytes are `hi` then `lo`. -/
def half (hi lo : Byte) : Half := hi ++ lo

/-! ### CRC (R101) -/

/-- One of the eight shifts of R101. -/
def crcShift (c : Half) : Half := if c.msb then (c <<< 1) ^^^ 0x1021#16 else c <<< 1

/-- `k` shifts. -/
def crcShifts : Nat → Half → Half
  | 0, c => c
  | k + 1, c => crcShifts k (crcShift c)

/-- The CRC after one more byte. -/
def crcByte (c : Half) (b : Byte) : Half := crcShifts 8 (c ^^^ (b.setWidth 16 <<< 8))

/-- `crc(s)` (R101). -/
def crc (s : List Byte) : Half := s.foldl crcByte 0xFFFF#16

/-! ### Header fields (R71, R73, R74) -/

/-- The tag byte (R73). -/
def tagByte : Tag → Byte
  | .cmd => 0xD0#8
  | .ack => 0xD1#8
  | .mailbox => 0xD2#8

/-- The tag a tag byte stands for; none for a reserved one (R73). -/
def tagOfByte (b : Byte) : Option Tag :=
  if b = 0xD0#8 then some .cmd
  else if b = 0xD1#8 then some .ack
  else if b = 0xD2#8 then some .mailbox
  else none

/-- Byte 3 for a payload of `len` bytes: RT in bit 7, L[8] in bit 0, bits 6:1 zero (R74). -/
def modeByte (rt : Bool) (len : Nat) : Byte :=
  (if rt then 0x80#8 else 0x00#8) ||| ((BitVec.ofNat 9 len).extractLsb' 8 1).setWidth 8

/-- The payload length a header announces: `zext_9(byte2) + 256 * byte3[0]` (R74). -/
def headerLen (h2 h3 : Byte) : Nat := h2.toNat + 256 * (h3.getLsbD 0).toNat

/-- The RT bit of byte 3 (R74). -/
def rtBit (h3 : Byte) : Bool := h3.getLsbD 7

/-- `hdr_valid` (R105): a known tag, reserved bits 6:1 zero, and a length that fits. -/
def hdrValid (h1 h2 h3 : Byte) : Bool :=
  (tagOfByte h1).isSome && h3.extractLsb' 1 6 == 0#6 && decide (headerLen h2 h3 ≤ Config.maxDSize)

/-! ### ENCODE (R102) -/

/-- The four header bytes of a frame whose payload has `len` bytes (R71). -/
def frameHeader (seq : Byte) (tag : Tag) (rt : Bool) (len : Nat) : List Byte :=
  [seq, tagByte tag, (BitVec.ofNat 9 len).extractLsb' 0 8, modeByte rt len]

/-- Header and payload: what the CRC covers (R100). -/
def frameBody (seq : Byte) (tag : Tag) (rt : Bool) (p : List Byte) : List Byte :=
  frameHeader seq tag rt p.length ++ p

/-- `ENCODE(seq, tag, rt, p)` (R102). -/
def encodeFrame (seq : Byte) (tag : Tag) (rt : Bool) (p : List Byte) : List Byte :=
  frameBody seq tag rt p ++ be16 (crc (frameBody seq tag rt p))

/-! ### Fields of a complete candidate frame `f` (R108, R109) -/

/-- Bytes `0 .. len(f)-2`, which the CRC covers. -/
def candidateBody (f : List Byte) : List Byte := f.take (f.length - Config.crcWidth)

/-- The received CRC: the last two bytes, high byte first. -/
def candidateCrc (f : List Byte) : Half :=
  half (f.getD (f.length - 2) 0x00#8) (f.getD (f.length - 1) 0x00#8)

/-- The test of R108: `crc(body) = got`. -/
def candidateGood (f : List Byte) : Bool := crc (candidateBody f) == candidateCrc f

/-- SEQ, byte 0. -/
def candidateSeq (f : List Byte) : Byte := f.getD 0 0x00#8

/-- TAG, byte 1. -/
def candidateTag (f : List Byte) : Byte := f.getD 1 0x00#8

/-- RT, bit 7 of byte 3. -/
def candidateRt (f : List Byte) : Bool := rtBit (f.getD 3 0x00#8)

/-- The payload, bytes `4 .. len(f)-2`. -/
def candidatePayload (f : List Byte) : List Byte := (candidateBody f).drop Config.hdrSize

end Sys2Proof.Machine
end

