-- ==== Sys2Proof/Machine/Operands.lean ====
section
/-!
DEFINITION. Operands of the operations: the record request of R130 and its parts, the encoded command
record of R75, the effective address of R138, the result codes of R250 and the record check of R131.
-/

namespace Sys2Proof

namespace Request

/-- W of the request (R130). -/
def isWrite : Request → Bool
  | .read _ _ _ => false
  | .write _ _ _ => true

/-- The addressing mode of the request (R130). -/
def mode : Request → Mode
  | .read m _ _ => m
  | .write m _ _ => m

/-- The address as the host port delivers it (R130). -/
def addr : Request → Half
  | .read _ a _ => a
  | .write _ a _ => a

/-- n: the length delivered, or the number of data bytes (R130). -/
def len : Request → Nat
  | .read _ _ n => n.toNat
  | .write _ _ d => d.length

/-- D: the data of a WRITE, nothing for a READ (R130). -/
def data : Request → List Byte
  | .read _ _ _ => []
  | .write _ _ d => d

end Request

namespace Machine

/-- Bit 6 of a record byte 0 or opm byte (R75). -/
def modeBits : Mode → Byte
  | .fifo => 0x00#8
  | .ai => 0x40#8

/-- Bit 7 of a record byte 0 or opm byte (R75). -/
def writeBit (w : Bool) : Byte := if w then 0x80#8 else 0x00#8

/-- The mode an opm byte or record byte 0 selects (R75, R76). -/
def modeOfByte (b : Byte) : Mode := if b.getLsbD 6 then .ai else .fifo

/-- W of an opm byte or record byte 0 (R75). -/
def writeOfByte (b : Byte) : Bool := b.getLsbD 7

/-- The three header bytes of a command record (R75): op, mode and addr[13:8]; addr[7:0]; n - 1. -/
def recordHeader (w : Bool) (m : Mode) (a : RegAddr) (n : Nat) : List Byte :=
  [writeBit w ||| modeBits m ||| (a.extractLsb' 8 6).setWidth 8, a.extractLsb' 0 8,
    BitVec.ofNat 8 (n - 1)]

/-- The encoded command record of a request (R75, R132). -/
def recordBytes (r : Request) : List Byte :=
  recordHeader r.isWrite r.mode (r.addr.setWidth 14) r.len ++ r.data

/-- The read data a record's response will carry: `resp` of R132. -/
def respLen (r : Request) : Nat := if r.isWrite then 0 else r.len

/-- `ea(AI, addr, i)` (R138), exact. -/
def effectiveAddr (m : Mode) (a : RegAddr) (i : Nat) : Nat :=
  match m with
  | .ai => a.toNat + i
  | .fifo => a.toNat

/-- Result codes (R250). -/
inductive ResultCode where
  | ok
  | windowFull
  | addressOutOfRange
  | payloadTooLarge
  | linkDown
  | illegalOp
  deriving DecidableEq, Repr

/-- The first byte of a result (R250). -/
def codeByte : ResultCode → Byte
  | .ok => 0x00#8
  | .windowFull => 0x01#8
  | .addressOutOfRange => 0x02#8
  | .payloadTooLarge => 0x03#8
  | .linkDown => 0x04#8
  | .illegalOp => 0x05#8

/-- CHECK(W, addr, n) for n >= 1 (R131), with exact arithmetic (R10). -/
def check (w : Bool) (a n : Nat) : ResultCode :=
  if a + n > Config.shadowSize then .addressOutOfRange
  else if n > Config.maxDSize then .payloadTooLarge
  else if w = true ∧ Config.recHdr + n > Config.maxDSize then .payloadTooLarge
  else .ok

/-- CHECK of a request. -/
def checkRequest (r : Request) : ResultCode := check r.isWrite r.addr.toNat r.len

/-- The payload an RTSUB builds from its records, or the result code of the first failing one (R191);
zero-length records are skipped (D11). -/
def rtPayload : List Request → Except ResultCode (List Byte)
  | [] => .ok []
  | r :: rs =>
    if r.len = 0 then rtPayload rs
    else
      match checkRequest r with
      | .ok =>
        match rtPayload rs with
        | .ok p => .ok (recordBytes r ++ p)
        | .error c => .error c
      | c => .error c

end Machine

end Sys2Proof
end

