-- ==== Sys2Proof/Syntax.lean ====
section
/-!
DEFINITION. The operation set: one constructor per row of spec/opcode_table.json (R70, R95).
-/

namespace Sys2Proof

/-- The block's "instructions" (R70): host words, port events, command records, frames and
pseudo-operations, in the order of spec/opcode_table.json. -/
inductive Instr where
  /-- QCMD, `queue_command` (R83, R132). -/
  | qcmd (r : Request)
  /-- FLUSH (R84, R134). -/
  | flush
  /-- RDSH, `read_shadow` (R85, R135). -/
  | rdsh (addr n : Half)
  /-- RTSUB, `rt_submit` (R86, R191). -/
  | rtsub (rs : List Request)
  /-- CHRST, channel reset (R87, R231). -/
  | chrst
  /-- STATUS (R88, R232). -/
  | status
  /-- ILLEGAL: the illegal host word `w` (R89, R234). -/
  | illegal (w : List Byte)
  /-- RX_BYTE(b) (R106). -/
  | rxByte (b : Byte)
  /-- TIMEOUT (R171). -/
  | timeout
  /-- IOERR (R233). -/
  | ioerr
  /-- TXRT (R192). -/
  | txrt
  /-- POR, power-on reset (R280). -/
  | por
  /-- READ.FIFO record (R76). -/
  | readFifo (addr : RegAddr) (n : Nat)
  /-- READ.AI record (R76). -/
  | readAi (addr : RegAddr) (n : Nat)
  /-- WRITE.FIFO record (R76). -/
  | writeFifo (addr : RegAddr) (data : List Byte)
  /-- WRITE.AI record (R76). -/
  | writeAi (addr : RegAddr) (data : List Byte)
  /-- FRAME.CMD: TAG_CMD, RT = 0 (R79, R217). -/
  | frameCmd (seq : Byte) (payload : List Byte)
  /-- FRAME.CMD.RT: TAG_CMD, RT = 1 (R195). -/
  | frameCmdRt (seq : Byte) (payload : List Byte)
  /-- FRAME.ACK: TAG_ACK, RT = 0 (R80, R213). -/
  | frameAck (seq : Byte) (payload : List Byte)
  /-- FRAME.MAILBOX: TAG_MAILBOX, RT = 0 (R81, R212). -/
  | frameMailbox (seq : Byte) (payload : List Byte)
  /-- FRAME.RT_RESULT: RT = 1 with a tag other than TAG_CMD, which is FRAME.CMD.RT's (R81, R211). -/
  | frameRtResult (tag : Tag) (seq : Byte) (payload : List Byte)
  /-- FRAME.RESERVED: four bytes that are not a header (R90, R105). -/
  | frameReserved (h0 h1 h2 h3 : Byte)
  /-- WR (R94). -/
  | wr (addr : Half) (data : List Byte)
  /-- RD (R94). -/
  | rd (addr n : Half)
  /-- PUSH (R94). -/
  | push (addr : Half) (data : List Byte)
  /-- WRSYNC (R94). -/
  | wrsync (addr : Half) (data : List Byte)
  /-- RDSYNC (R94). -/
  | rdsync (addr n : Half)
  /-- POLL (R94). -/
  | poll (bytes : List Byte)
  deriving DecidableEq, Repr

end Sys2Proof
end

