-- ==== Sys2Proof/WellFormed.lean ====
section
/-!
DEFINITION. Which terms of `Instr` are operations the block's encodings can carry: length bounds of the
fields (R74, R77, R83, R86), the legality of a host word written straight from R83 to R89, and the header
test of R105 for FRAME.RESERVED.
-/

namespace Sys2Proof

/-- The opm byte's bits 5:0 are 0 (R83). -/
def opmOk (opm : Byte) : Bool := opm.extractLsb' 0 6 == 0#6

/-- The number of data bytes behind a record request's five header bytes (R83): N when W = 1, else 0. -/
def dataLen (opm n1 n0 : Byte) : Nat := if opm.getLsbD 7 then 256 * n1.toNat + n0.toNat else 0

/-- The bytes are exactly `k` record requests, one after the other (R86). -/
def requestsExact : Nat → List Byte → Bool
  | 0, bs => bs.isEmpty
  | k + 1, opm :: _ :: _ :: n1 :: n0 :: rest =>
    opmOk opm && decide (dataLen opm n1 n0 ≤ rest.length)
      && requestsExact k (rest.drop (dataLen opm n1 n0))
  | _ + 1, _ => false

/-- A legal host word (R83 to R88); every other one is illegal (R89). -/
def legalHostWord : List Byte → Bool
  | [] => false
  | op :: rest =>
    if op = 0x01#8 then requestsExact 1 rest
    else if op = 0x02#8 ∨ op = 0x05#8 ∨ op = 0x06#8 then rest.isEmpty
    else if op = 0x03#8 then rest.length == 4
    else if op = 0x04#8 then
      match rest with
      | [] => false
      | k :: recs => requestsExact k.toNat recs
    else false

/-- The 16-bit length field holds the data's length (R83). -/
def Request.wellFormed : Request → Bool
  | .read _ _ _ => true
  | .write _ _ d => decide (d.length < 65536)

/-- A payload the frame header's length field may announce (R71, R74). -/
def payloadOk (p : List Byte) : Bool := decide (p.length ≤ Config.maxDSize)

/-- A record's length has an encoding (R77). -/
def recordLenOk (n : Nat) : Bool := decide (1 ≤ n ∧ n ≤ 256)

/-- A pseudo-operation's data fits the length field of the host word it expands to (R83, R94). -/
def lineDataOk (d : List Byte) : Bool := decide (d.length < 65536)

/-- The terms the encodings can carry. -/
def Instr.wellFormed : Instr → Bool
  | .qcmd r => r.wellFormed
  | .flush => true
  | .rdsh _ _ => true
  | .rtsub rs => decide (rs.length < 256) && rs.all Request.wellFormed
  | .chrst => true
  | .status => true
  | .illegal w => !legalHostWord w
  | .rxByte _ => true
  | .timeout => true
  | .ioerr => true
  | .txrt => true
  | .por => true
  | .readFifo _ n => recordLenOk n
  | .readAi _ n => recordLenOk n
  | .writeFifo _ d => recordLenOk d.length
  | .writeAi _ d => recordLenOk d.length
  | .frameCmd _ p => payloadOk p
  | .frameCmdRt _ p => payloadOk p
  | .frameAck _ p => payloadOk p
  | .frameMailbox _ p => payloadOk p
  | .frameRtResult tag _ p => decide (tag ≠ .cmd) && payloadOk p
  | .frameReserved _ h1 h2 h3 => !Machine.hdrValid h1 h2 h3
  | .wr _ d => lineDataOk d
  | .rd _ _ => true
  | .push _ d => lineDataOk d
  | .wrsync _ d => lineDataOk d
  | .rdsync _ _ => true
  | .poll _ => true

end Sys2Proof
end

