-- ==== Sys2Proof/Decode.lean ====
section
/-!
DEFINITION. Decoding what a port presents into an instruction, the words of the opcode table, and the
encoder (spec/30_encoding.md R71 to R95). A host word always decodes: an illegal one is the instruction
ILLEGAL (R89). A chunk of received bytes always decodes: to its frame's row where it is exactly one good
frame, to FRAME.RESERVED where it is four bytes that are no header, and to POLL otherwise (R94, R111).
-/

namespace Sys2Proof

open Machine

/-! ### Host words (R82 to R89) -/

/-- One record request `[opm, A16, N16] ++ D` and the bytes behind it (R83, R86). -/
def parseRequest : List Byte → Option (Request × List Byte)
  | opm :: a1 :: a0 :: n1 :: n0 :: rest =>
    if opm.extractLsb' 0 6 = 0#6 then
      if writeOfByte opm then
        if (half n1 n0).toNat ≤ rest.length then
          some (.write (modeOfByte opm) (half a1 a0) (rest.take (half n1 n0).toNat),
            rest.drop (half n1 n0).toNat)
        else none
      else some (.read (modeOfByte opm) (half a1 a0) (half n1 n0), rest)
    else none
  | _ => none

/-- Exactly `k` record requests (R86). -/
def parseRequests : Nat → List Byte → Option (List Request)
  | 0, [] => some []
  | 0, _ :: _ => none
  | k + 1, bs =>
    match parseRequest bs with
    | none => none
    | some (r, rest) =>
      match parseRequests k rest with
      | none => none
      | some rs => some (r :: rs)

/-- The operand bytes of a QCMD word (R83). -/
def decodeQcmd (w : List Byte) (rest : List Byte) : Instr :=
  match parseRequest rest with
  | some (r, []) => .qcmd r
  | _ => .illegal w

/-- The operand bytes of an RDSH word (R85). -/
def decodeRdsh (w : List Byte) : List Byte → Instr
  | [a1, a0, n1, n0] => .rdsh (half a1 a0) (half n1 n0)
  | _ => .illegal w

/-- The operand bytes of an RTSUB word (R86). -/
def decodeRtsub (w : List Byte) : List Byte → Instr
  | [] => .illegal w
  | k :: recs =>
    match parseRequests k.toNat recs with
    | some rs => .rtsub rs
    | none => .illegal w

/-- A word that is exactly its opcode byte (R84, R87, R88). -/
def decodeBare (w : List Byte) (i : Instr) : List Byte → Instr
  | [] => i
  | _ :: _ => .illegal w

/-- A host word (R82): total, since an illegal word is an instruction too (R89). -/
def decodeHostWord : List Byte → Instr
  | [] => .illegal []
  | op :: rest =>
    if op = 0x01#8 then decodeQcmd (op :: rest) rest
    else if op = 0x02#8 then decodeBare (op :: rest) .flush rest
    else if op = 0x03#8 then decodeRdsh (op :: rest) rest
    else if op = 0x04#8 then decodeRtsub (op :: rest) rest
    else if op = 0x05#8 then decodeBare (op :: rest) .chrst rest
    else if op = 0x06#8 then decodeBare (op :: rest) .status rest
    else .illegal (op :: rest)

/-! ### Command records (R75 to R77) -/

/-- The 14-bit address of record bytes 0 and 1 (R77). -/
def recordAddr (b0 b1 : Byte) : RegAddr := b0.extractLsb' 0 6 ++ b1

/-- A READ record's instruction (R76). -/
def readRecord (m : Mode) (a : RegAddr) (n : Nat) : Instr :=
  match m with
  | .fifo => .readFifo a n
  | .ai => .readAi a n

/-- A WRITE record's instruction (R76). -/
def writeRecord (m : Mode) (a : RegAddr) (d : List Byte) : Instr :=
  match m with
  | .fifo => .writeFifo a d
  | .ai => .writeAi a d

/-- Exactly one command record (R75, R79): bytes short of its header's length, or behind it, are rejected. -/
def decodeRecord : List Byte → Except Reject Instr
  | b0 :: b1 :: b2 :: d =>
    if writeOfByte b0 then
      if d.length < b2.toNat + 1 then .error .recordTruncated
      else if d.length = b2.toNat + 1 then .ok (writeRecord (modeOfByte b0) (recordAddr b0 b1) d)
      else .error .recordTrailing
    else if d = [] then .ok (readRecord (modeOfByte b0) (recordAddr b0 b1) (b2.toNat + 1))
    else .error .recordTrailing
  | _ => .error .recordTruncated

/-! ### Frames and chunks of received bytes (R71, R73, R90, R111) -/

/-- The row of a good frame: the RT bit is looked at before the tag (R210), and a TAG_CMD frame with
RT = 1 is FRAME.CMD.RT's. -/
def frameInstr (tag : Tag) (rt : Bool) (seq : Byte) (p : List Byte) : Instr :=
  match tag, rt with
  | .cmd, false => .frameCmd seq p
  | .cmd, true => .frameCmdRt seq p
  | .ack, false => .frameAck seq p
  | .mailbox, false => .frameMailbox seq p
  | t, true => .frameRtResult t seq p

/-- A chunk of received bytes. -/
def decodeWire (bs : List Byte) : Instr :=
  match bs with
  | h0 :: h1 :: h2 :: h3 :: rest =>
    if hdrValid h1 h2 h3 then
      if rest.length = headerLen h2 h3 + Config.crcWidth ∧ candidateGood bs = true then
        match tagOfByte h1 with
        | some tag => frameInstr tag (rtBit h3) h0 (candidatePayload bs)
        | none => .poll bs
      else .poll bs
    else if rest = [] then .frameReserved h0 h1 h2 h3
    else .poll bs
  | _ => .poll bs

/-! ### Pseudo-operations (R94) -/

/-- A line's instruction. -/
def lineInstr : Line → Instr
  | .wr a d => .wr a d
  | .rd a n => .rd a n
  | .push a d => .push a d
  | .wrsync a d => .wrsync a d
  | .rdsync a n => .rdsync a n
  | .poll bs => .poll bs

/-! ### The decoder -/

/-- What a port presents, as an instruction; only bytes given as one command record can be rejected. -/
def decode : Input → Except Reject Instr
  | .host w => .ok (decodeHostWord w)
  | .record r => decodeRecord r
  | .wire bs => .ok (decodeWire bs)
  | .rx b => .ok (.rxByte b)
  | .timeout => .ok .timeout
  | .ioerr => .ok .ioerr
  | .txrt => .ok .txrt
  | .por => .ok .por
  | .line l => .ok (lineInstr l)

/-! ### The encoder -/

/-- `[opm, A16, N16] ++ D` (R83). -/
def requestBytes (r : Request) : List Byte :=
  (writeBit r.isWrite ||| modeBits r.mode) :: (be16 r.addr ++ be16 (BitVec.ofNat 16 r.len) ++ r.data)

/-- The bytes or the signal of an instruction at its port (R71, R75, R83 to R88, R92, R94). -/
def encode : Instr → Input
  | .qcmd r => .host (0x01#8 :: requestBytes r)
  | .flush => .host [0x02#8]
  | .rdsh a n => .host (0x03#8 :: (be16 a ++ be16 n))
  | .rtsub rs => .host (0x04#8 :: BitVec.ofNat 8 rs.length :: rs.flatMap requestBytes)
  | .chrst => .host [0x05#8]
  | .status => .host [0x06#8]
  | .illegal w => .host w
  | .rxByte b => .rx b
  | .timeout => .timeout
  | .ioerr => .ioerr
  | .txrt => .txrt
  | .por => .por
  | .readFifo a n => .record (recordHeader false .fifo a n)
  | .readAi a n => .record (recordHeader false .ai a n)
  | .writeFifo a d => .record (recordHeader true .fifo a d.length ++ d)
  | .writeAi a d => .record (recordHeader true .ai a d.length ++ d)
  | .frameCmd seq p => .wire (encodeFrame seq .cmd false p)
  | .frameCmdRt seq p => .wire (encodeFrame seq .cmd true p)
  | .frameAck seq p => .wire (encodeFrame seq .ack false p)
  | .frameMailbox seq p => .wire (encodeFrame seq .mailbox false p)
  | .frameRtResult tag seq p => .wire (encodeFrame seq tag true p)
  | .frameReserved h0 h1 h2 h3 => .wire [h0, h1, h2, h3]
  | .wr a d => .line (.wr a d)
  | .rd a n => .line (.rd a n)
  | .push a d => .line (.push a d)
  | .wrsync a d => .line (.wrsync a d)
  | .rdsync a n => .line (.rdsync a n)
  | .poll bs => .line (.poll bs)

/-! ### The opcode table's words (notes/assumptions/13.md) -/

/-- The host word whose opcode is `op` and whose operand bytes are 0. -/
def tableHostWord (op : Byte) : List Byte :=
  if op = 0x01#8 then [op, 0x00#8, 0x00#8, 0x00#8, 0x00#8, 0x00#8]
  else if op = 0x03#8 then [op, 0x00#8, 0x00#8, 0x00#8, 0x00#8]
  else if op = 0x04#8 then [op, 0x00#8]
  else [op]

/-- The command record whose byte 0 is `b` and whose other bytes are 0. -/
def tableRecord (b : Byte) : List Byte :=
  if writeOfByte b then [b, 0x00#8, 0x00#8, 0x00#8] else [b, 0x00#8, 0x00#8]

/-- The frame whose TAG byte is `t`, whose byte 3 is `m`, and whose other bytes are 0 but for its CRC,
which is the one R102 gives; the four bytes alone where they are no header. -/
def tableFrame (t m : Byte) : List Byte :=
  match hdrValid t 0x00#8 m, tagOfByte t with
  | true, some tag => encodeFrame 0x00#8 tag (rtBit m) (List.replicate (headerLen 0x00#8 m) 0x00#8)
  | _, _ => [0x00#8, t, 0x00#8, m]

/-- What a port presents for the table's word `w`: one selecting byte for a host word or a record, the
TAG byte (bits 15..8) and byte 3 (bits 7..0) for a frame. -/
def tableInput (nbits w : Nat) : Option Input :=
  if nbits = 8 then
    let b : Byte := BitVec.ofNat 8 w
    if b.toNat = 0 ∨ 6 < b.toNat then
      if b.extractLsb' 0 6 = 0#6 then some (.record (tableRecord b)) else some (.host [b])
    else some (.host (tableHostWord b))
  else if nbits = 16 then some (.wire (tableFrame (BitVec.ofNat 8 (w / 256)) (BitVec.ofNat 8 w)))
  else none

/-- The instruction the decoder reads from the table's word. -/
def decodeTableWord (nbits w : Nat) : Option Instr :=
  match tableInput nbits w with
  | none => none
  | some x =>
    match decode x with
    | .ok i => some i
    | .error _ => none

end Sys2Proof
end

