-- ==== Sys2Proof/Machine/State.lean ====
section
/-!
DEFINITION. The architectural state of one block instance (spec/10_state.md R20 to R37,
spec/20_memory.md R50), the block's outputs (R250, R256), and the state after power-on reset (R40).
-/

namespace Sys2Proof.Machine

/-- The register shadow as a list of (address, byte) cells in canonical form (`Memory.wf`). -/
abbrev Memory := List Host.Cell

/-- A READ record a response must answer (R26, R28): (mode, addr, n). -/
structure ReadRec where
  mode : Mode
  addr : RegAddr
  n : Nat
  deriving DecidableEq, Repr

/-- One slot of the frame store (R26). While `occupied` is false the other fields hold no value a rule reads. -/
structure Slot where
  occupied : Bool
  seq : Byte
  frame : List Byte
  reads : List ReadRec
  deriving DecidableEq, Repr

/-- The two states of the deframer (R31). -/
inductive RxState where
  | sync
  | ploadCrc
  deriving DecidableEq, Repr

/-- Fatal causes (R36, R263). -/
inductive FatalCause where
  | none
  | linkTimeout
  | maxRetransmitExceeded
  | ioError
  deriving DecidableEq, Repr

/-- The block's output events (R256). -/
inductive Event where
  | tx (frame : List Byte)
  | mailbox (payload : List Byte)
  | crcError (count : Count)
  | rtResult (payload : List Byte)
  | fatal (cause : FatalCause) (sb sm rn : Byte) (crc : Count) (retx : Nat)
  deriving DecidableEq, Repr

/-- One entry of the output history: an event, or the result `[code] ++ data` that ends a host
operation (R82, R250). -/
inductive Output where
  | event (e : Event)
  | result (bytes : List Byte)
  deriving DecidableEq, Repr

/-- The state of one block instance (R20). The last three fields are the model's own: the instance's
parameters (R6), what the ports will present, oldest first, and the observation R41 speaks of. -/
structure State where
  /-- next sequence number to assign (R21) -/
  sn : Byte
  /-- base: oldest unacknowledged sequence number (R22) -/
  sb : Byte
  /-- one past the newest frame sent (R23) -/
  sm : Byte
  /-- last request number received (R24) -/
  rn : Byte
  /-- the frame store (R26) -/
  store : Vector Slot Config.storeSize
  /-- the encoded records queued so far (R28) -/
  pendBytes : List Byte
  /-- the READ records among them, in order (R28) -/
  pendReads : List ReadRec
  /-- the read-data bytes the response will carry (R28) -/
  pendResp : Nat
  /-- the realtime slot's frame (R30) -/
  rtFrame : List Byte
  /-- the realtime slot holds content not yet transmitted (R30) -/
  rtPending : Bool
  /-- the deframer's state (R31) -/
  rxState : RxState
  /-- the candidate frame's bytes received so far (R31) -/
  rxBuf : List Byte
  /-- payload and CRC bytes the current header announced (R31) -/
  rxNeed : Nat
  /-- `crc_error_counter` (R33) -/
  crcErrors : Count
  /-- consecutive recovery rounds since Sb last advanced (R35) -/
  retxCount : Nat
  /-- the FATAL mode (R36, R259) -/
  fatal : Bool
  /-- why the block is in FATAL (R36, R263) -/
  fatalCause : FatalCause
  /-- the register shadow (R50) -/
  shadow : Memory
  /-- MAX_RETX, CRC_HEALTH_THRESHOLD, RT_SEQ (R6), fixed for the life of the instance -/
  params : Params
  /-- what the ports will present, oldest first (notes/assumptions/2.md) -/
  inputs : List Input
  /-- the output history, oldest first (R41, R256, R257; notes/assumptions/5.md) -/
  history : List Output
  deriving DecidableEq, Repr

/-- Why the machine stops. Neither is raised in a state reachable from reset. -/
inductive Fault where
  /-- Raised by RECOVER (TIMEOUT, received bytes): the slot of the outstanding frame `q` is not occupied, so
  there is no frame to resend; spec/93 I22 calls it stuck and R27 rules it out. Safe. -/
  | emptySlot (q : Byte)
  /-- Raised by SHADOW_FILL (received bytes): a byte would go to `a`, outside the shadow's 16384 addresses
  (R50); the record check R131 rules it out. Safe. -/
  | shadowAddress (a : Nat)
  deriving DecidableEq, Repr

/-- Why a step gives no meaning. -/
inductive Refusal where
  /-- Raised by `exec`'s arm of an instruction that has no meaning yet. Safe. -/
  | notModelled (mnemonic : String)
  /-- Raised by `step`: bytes presented as one command record are not one (R75), so they name no
  instruction (notes/assumptions/15.md). Safe. -/
  | malformedRecord (why : Reject)
  deriving DecidableEq, Repr

/-- A slot that has never held a frame. R40 gives its last three fields no value, since no rule reads them
while it is unoccupied; DESIGN CHOICE (notes/assumptions/6.md). -/
def emptySlot : Slot := { occupied := false, seq := 0x00#8, frame := [], reads := [] }

/-- The state after power-on reset (R40, column "after POR"; R282), with the vectors' parameters and
nothing presented yet. `rtFrame` has no value there: DESIGN CHOICE (notes/assumptions/7.md). -/
def State.reset : State :=
  { sn := Config.initSeq, sb := Config.initSeq, sm := Config.initSeq, rn := Config.initSeq
    store := Vector.replicate Config.storeSize emptySlot
    pendBytes := [], pendReads := [], pendResp := 0
    rtFrame := [], rtPending := false
    rxState := .sync, rxBuf := [], rxNeed := 0
    crcErrors := 0x00000000#32, retxCount := 0
    fatal := false, fatalCause := .none
    shadow := []
    params := Params.ofVectors, inputs := [], history := [] }

end Sys2Proof.Machine
end

