-- ==== Sys2Proof/Machine/Ops.lean ====
section
/-!
DEFINITION. The named operations over the block's registers, frame store, shadow and outputs
(spec/00_scope.md R9, R11), entering FATAL (R260) and the two resets that leave it (R231, R280).
-/

namespace Sys2Proof.Machine

/-! ### Sequence arithmetic (R9) -/

/-- `dist(a, b)`: how far `b` is ahead of `a`, modulo 256. -/
def dist (a b : Byte) : Nat := (b - a).toNat

/-- `before(a, b)`: the signed difference `b - a` is positive. -/
def before (a b : Byte) : Bool := decide (0 < (b - a).toInt)

/-- The window `w = dist(Sb, Sm)` (R25). -/
def window (s : State) : Nat := dist s.sb s.sm

/-- `q` is outstanding: `dist(Sb, q) < dist(Sb, Sm)` (R13, R25). -/
def outstanding (s : State) (q : Byte) : Bool := decide (dist s.sb q < window s)

/-! ### Outputs (R256, R250) -/

/-- One more entry of the output history. -/
def State.log (s : State) (o : Output) : State := { s with history := s.history ++ [o] }

/-- `emit E` (R11). -/
def State.emit (s : State) (e : Event) : State := s.log (.event e)

/-- `return CODE(data)` (R11): the result is the byte string `[code] ++ data` (R82). -/
def State.ret (s : State) (c : ResultCode) (data : List Byte) : State :=
  s.log (.result (codeByte c :: data))

/-! ### The frame store (R26) -/

/-- `q mod STORE_SIZE`. -/
def slotIndex (q : Byte) : Fin Config.storeSize := ⟨q.toNat % 255, Nat.mod_lt _ (by decide)⟩

/-- `slot(q)` (R11). -/
def State.slot (s : State) (q : Byte) : Slot := s.store[slotIndex q]

/-- `slot(q) <- v`. -/
def State.setSlot (s : State) (q : Byte) (v : Slot) : State :=
  { s with store := s.store.set (slotIndex q) v }

/-- `slot(q).occupied <- 0`. -/
def State.freeSlot (s : State) (q : Byte) : State :=
  s.setSlot q { s.slot q with occupied := false }

/-- `for k in 0 .. d-1: slot(q +8 k).occupied <- 0` (R164). -/
def freeSlots : Nat → Byte → State → State
  | 0, _, s => s
  | d + 1, q, s => freeSlots d (q + 1#8) (s.freeSlot q)

/-! ### The register shadow (R50) -/

/-- What an address with no cell reads as: the shadow's power-on value (R50, R40). -/
def unlistedByte : Byte := 0x00#8

/-- The canonical form: addresses strictly rising and inside the shadow, no cell equal to what an
unlisted address reads as. -/
abbrev Memory.wf (m : Memory) : Prop :=
  m.Pairwise (fun x y => x.1 < y.1) ∧ ∀ c ∈ m, c.2 ≠ unlistedByte ∧ c.1 < Config.shadowSize

/-- `shadow[a]`. -/
def Memory.read : Memory → Nat → Byte
  | [], _ => unlistedByte
  | (k, x) :: m, a => if k = a then x else Memory.read m a

/-- The cell list with `a` in front, unless `v` is what an unlisted address reads as. -/
def Memory.consCell (a : Nat) (v : Byte) (m : Memory) : Memory :=
  if v = unlistedByte then m else (a, v) :: m

/-- `shadow[a] <- v`, keeping the canonical form. -/
def Memory.write : Memory → Nat → Byte → Memory
  | [], a, v => Memory.consCell a v []
  | (k, x) :: m, a, v =>
    if a < k then Memory.consCell a v ((k, x) :: m)
    else if a = k then Memory.consCell a v m
    else (k, x) :: Memory.write m a v

/-- `MemRead(a, n)` (R11). -/
def memRead (s : State) (a n : Nat) : List Byte := (List.range n).map fun i => s.shadow.read (a + i)

/-- `MemWrite(a, 1, v)` (R11); an address outside the shadow does not exist (R50). -/
def memWrite (a : Nat) (v : Byte) (s : State) : Except Fault State :=
  if a < Config.shadowSize then .ok { s with shadow := s.shadow.write a v }
  else .error (.shadowAddress a)

/-! ### Entering FATAL (R260) and leaving it (R262) -/

/-- `raise Fatal(cause)` (R260): the cause is saved, the mode becomes FATAL and the event carries the
sequence numbers and counters; in FATAL the first cause stays. -/
def raiseFatal (cause : FatalCause) (s : State) : State :=
  if s.fatal then s
  else
    { s with fatal := true, fatalCause := cause }.emit
      (.fatal cause s.sb s.sm s.rn s.crcErrors s.retxCount)

/-- The channel reset's effect on the state (R231, R281), without its result. -/
def channelReset (s : State) : State :=
  { s with
    sn := Config.initSeq, sb := Config.initSeq, sm := Config.initSeq, rn := Config.initSeq
    store := s.store.map fun v => { v with occupied := false }
    pendBytes := [], pendReads := [], pendResp := 0
    rtPending := false
    rxState := .sync, rxBuf := [], rxNeed := 0
    retxCount := 0
    fatal := false, fatalCause := .none }

/-- The power-on reset's effect on the state (R280). -/
def powerOnReset (s : State) : State :=
  channelReset { s with shadow := [], crcErrors := 0x00000000#32 }

/-- The outcome of an operation that may stop. -/
def finish : Except Fault State → Host.Outcome State Fault Refusal
  | .ok s => .next s
  | .error e => .fault e

end Sys2Proof.Machine
end

