-- ==== Sys2Proof/Machine/Arq.lean ====
section
/-!
DEFINITION. The Go-Back-N sequencer's internal operations (spec/42_arq.md): SUBMIT, RECOVER and ON_ACK.
-/

namespace Sys2Proof.Machine

/-- What triggers a recovery (R168). -/
inductive Trigger where
  | timeout
  | crc
  | outOfOrder
  deriving DecidableEq, Repr

/-- SUBMIT(p, reads) (R161): the sequence number assigned and the state after, or none for WINDOW_FULL,
when 64 frames are outstanding (R162) or the slot of Sm is busy (R163). -/
def submit (p : List Byte) (reads : List ReadRec) (s : State) : Option (Byte × State) :=
  if window s = Config.windowSize then none
  else if (s.slot s.sm).occupied then none
  else
    let f := encodeFrame s.sm .cmd false p
    some (s.sm,
      { s.setSlot s.sm { occupied := true, seq := s.sm, frame := f, reads := reads } with
        sm := s.sm + 1#8, sn := s.sm + 1#8 }.emit (.tx f))

/-- `for k in 0 .. w-1: tx(slot(q +8 k).frame)` (R168). An unoccupied slot has no frame to send (R26):
spec/93 I22 calls that stuck. -/
def retransmit : Nat → Byte → State → Except Fault State
  | 0, _, s => .ok s
  | w + 1, q, s =>
    if (s.slot q).occupied then retransmit w (q + 1#8) (s.emit (.tx (s.slot q).frame))
    else .error (.emptySlot q)

/-- The cause a trigger raises at the retransmission limit (R168, R169). -/
def limitCause : Trigger → FatalCause
  | .timeout => .linkTimeout
  | .crc => .maxRetransmitExceeded
  | .outOfOrder => .maxRetransmitExceeded

/-- RECOVER(t) (R168, R169). -/
def recover (t : Trigger) (s : State) : Except Fault State :=
  if s.fatal then .ok s
  else if window s = 0 then .ok s
  else if s.params.maxRetx.toNat ≤ s.retxCount then .ok (raiseFatal (limitCause t) s)
  else retransmit (window s) s.sb { s with retxCount := s.retxCount + 1 }

/-- ON_ACK(r) (R164 to R167). -/
def onAck (r : Byte) (s : State) : Except Fault State :=
  if window s < dist s.sb r then recover .outOfOrder { s with rn := r }
  else if dist s.sb r = 0 then .ok { s with rn := r }
  else .ok { freeSlots (dist s.sb r) s.sb { s with rn := r } with sb := r, retxCount := 0 }

end Sys2Proof.Machine
end

