-- ==== Sys2Proof/Machine/Receive.lean ====
section
/-!
DEFINITION. The receive path: shadow fill and dispatch of inbound frames (spec/44_dispatch.md) and the
two-state deframer (spec/40_frame_codec.md R105 to R115).
-/

namespace Sys2Proof.Machine

/-- The sum of n over a READ list (R213, R28). -/
def readTotal (reads : List ReadRec) : Nat := (reads.map ReadRec.n).sum

/-- The bytes of one READ record, byte `i` first, to the register R138 gives (R214, R215). -/
def fillRecord (m : Mode) (a : RegAddr) : Nat → List Byte → State → Except Fault State
  | _, [], s => .ok s
  | i, b :: bs, s =>
    match memWrite (effectiveAddr m a i) b s with
    | .ok s' => fillRecord m a (i + 1) bs s'
    | .error e => .error e

/-- SHADOW_FILL(reads, p) (R214). -/
def shadowFill : List ReadRec → List Byte → State → Except Fault State
  | [], _, s => .ok s
  | r :: rs, p, s =>
    match fillRecord r.mode r.addr 0 (p.take r.n) s with
    | .ok s' => shadowFill rs (p.drop r.n) s'
    | .error e => .error e

/-- The condition under which ACK_IN places the read data (R213, R216): `r` acknowledges news, and the
newest frame it acknowledges is in its slot and asked for exactly `len(p)` bytes. -/
def ackCarriesData (r : Byte) (p : List Byte) (s : State) : Bool :=
  decide (1 ≤ dist s.sb r ∧ dist s.sb r ≤ window s)
    && ((s.slot (r - 1#8)).occupied && (s.slot (r - 1#8)).seq == r - 1#8
      && p.length == readTotal (s.slot (r - 1#8)).reads)

/-- ACK_IN(r, p) (R213): the read data is placed first, the acknowledgement applied second. -/
def ackIn (r : Byte) (p : List Byte) (s : State) : Except Fault State :=
  if ackCarriesData r p s then
    match shadowFill (s.slot (r - 1#8)).reads p s with
    | .ok s' => onAck r s'
    | .error e => .error e
  else onAck r s

/-- DISPATCH(seq, tag, rt, p) (R210): the RT bit is tested before the tag; TAG_CMD with RT = 0 does
nothing (R217). -/
def dispatch (seq tag : Byte) (rt : Bool) (p : List Byte) (s : State) : Except Fault State :=
  if rt then .ok (s.emit (.rtResult p))
  else if tag = tagByte .mailbox then .ok (s.emit (.mailbox p))
  else if tag = tagByte .ack then ackIn seq p s
  else .ok s

/-- The deframer in SYNC with an empty buffer (R108, R40). -/
def State.rxIdle (s : State) : State := { s with rxState := .sync, rxBuf := [], rxNeed := 0 }

/-- The CRC-error counter one up, saturating (R110, R33). -/
def crcCountUp (c : Count) : Count := if c < Config.crcCountMax then c + 1#32 else c

/-- FRAME_BAD() (R110): count, report, then recover. -/
def frameBad (s : State) : Except Fault State :=
  recover .crc
    ({ s with crcErrors := crcCountUp s.crcErrors }.emit (.crcError (crcCountUp s.crcErrors)))

/-- FRAME_OK(f) (R109). -/
def frameOk (f : List Byte) (s : State) : Except Fault State :=
  dispatch (candidateSeq f) (candidateTag f) (candidateRt f) (candidatePayload f) s

/-- SYNC_STEP() (R107). -/
def syncStep (s : State) : State :=
  match s.rxBuf with
  | _ :: h1 :: h2 :: h3 :: _ =>
    if hdrValid h1 h2 h3 then
      { s with rxNeed := headerLen h2 h3 + Config.crcWidth, rxState := .ploadCrc }
    else { s with rxBuf := [h1, h2, h3] }
  | _ => s

/-- PLOAD_STEP() (R108). -/
def ploadStep (s : State) : Except Fault State :=
  if s.rxBuf.length < 4 + s.rxNeed then .ok s
  else if candidateGood s.rxBuf then frameOk s.rxBuf s.rxIdle
  else frameBad s.rxIdle

/-- RX_BYTE(b) (R106, R114). -/
def receiveByte (b : Byte) (s : State) : Except Fault State :=
  if s.fatal then .ok s
  else
    match s.rxState with
    | .sync => .ok (syncStep { s with rxBuf := s.rxBuf ++ [b] })
    | .ploadCrc => ploadStep { s with rxBuf := s.rxBuf ++ [b] }

/-- One RX_BYTE per byte, in order (R111). -/
def receiveBytes : List Byte → State → Except Fault State
  | [], s => .ok s
  | b :: bs, s =>
    match receiveByte b s with
    | .ok s' => receiveBytes bs s'
    | .error e => .error e

end Sys2Proof.Machine
end

