-- ==== Sys2Proof/Machine/Frames.lean ====
section
/-!
DEFINITION. The meanings of the frames (spec/opcode_table.json format "frame"): the frame's bytes arrive
at the RX port, one RX_BYTE each, with no other agent's step between (R71, R111).
DESIGN CHOICE (notes/assumptions/11.md). The frames the block itself sends are the TX events of SUBMIT,
RECOVER and TXRT.
-/

namespace Sys2Proof.Machine

/-- FRAME.CMD (R79, inbound R217). -/
def execFrameCmd (seq : Byte) (p : List Byte) (s : State) : Host.Outcome State Fault Refusal :=
  finish (receiveBytes (encodeFrame seq .cmd false p) s)

/-- FRAME.CMD.RT (R195, inbound R211). -/
def execFrameCmdRt (seq : Byte) (p : List Byte) (s : State) : Host.Outcome State Fault Refusal :=
  finish (receiveBytes (encodeFrame seq .cmd true p) s)

/-- FRAME.ACK (R213). -/
def execFrameAck (seq : Byte) (p : List Byte) (s : State) : Host.Outcome State Fault Refusal :=
  finish (receiveBytes (encodeFrame seq .ack false p) s)

/-- FRAME.MAILBOX (R212). -/
def execFrameMailbox (seq : Byte) (p : List Byte) (s : State) : Host.Outcome State Fault Refusal :=
  finish (receiveBytes (encodeFrame seq .mailbox false p) s)

/-- FRAME.RT_RESULT (R211). -/
def execFrameRtResult (tag : Tag) (seq : Byte) (p : List Byte) (s : State) :
    Host.Outcome State Fault Refusal :=
  finish (receiveBytes (encodeFrame seq tag true p) s)

/-- FRAME.RESERVED (R105, R107): four bytes that are no header. -/
def execFrameReserved (h0 h1 h2 h3 : Byte) (s : State) : Host.Outcome State Fault Refusal :=
  finish (receiveBytes [h0, h1, h2, h3] s)

end Sys2Proof.Machine
end

