-- ==== Sys2Proof/Machine/Batcher.lean ====
section
/-!
DEFINITION. The command batcher's shared operations (spec/41_batcher_shadow.md R131 to R134) and the
realtime slot's (spec/43_realtime.md R191, R192).
-/

namespace Sys2Proof.Machine

/-- FITS(rec, resp) (R133): both the outbound payload and the expected read data stay within a frame. -/
def fits (r : Request) (s : State) : Bool :=
  decide (s.pendBytes.length + (recordBytes r).length ≤ Config.maxDSize
    ∧ s.pendResp + respLen r ≤ Config.maxDSize)

/-- The READ list entry of a request; none for a WRITE (R132). -/
def readEntry (r : Request) : List ReadRec :=
  if r.isWrite then [] else [{ mode := r.mode, addr := r.addr.setWidth 14, n := r.len }]

/-- The record joins the pending frame (R132, last lines). -/
def appendRecord (r : Request) (s : State) : State :=
  { s with
    pendBytes := s.pendBytes ++ recordBytes r
    pendReads := s.pendReads ++ readEntry r
    pendResp := s.pendResp + respLen r }

/-- `pend_bytes <- []; pend_reads <- []; pend_resp <- 0` (R132, R134). -/
def State.clearPending (s : State) : State :=
  { s with pendBytes := [], pendReads := [], pendResp := 0 }

/-- QCMD(W, AI, addr, n, D) (R132). -/
def queueCommand (r : Request) (s : State) : State :=
  if s.fatal then s.ret .linkDown []
  else if r.len = 0 then s.ret .ok []
  else if checkRequest r ≠ .ok then s.ret (checkRequest r) []
  else if s.pendBytes = [] ∨ fits r s = true then (appendRecord r s).ret .ok []
  else
    match submit s.pendBytes s.pendReads s with
    | none => s.ret .windowFull []
    | some (_, s') => (appendRecord r s'.clearPending).ret .ok []

/-- FLUSH() (R134). -/
def flushPending (s : State) : State :=
  if s.fatal then s.ret .linkDown []
  else if s.pendBytes = [] then s.ret .ok []
  else
    match submit s.pendBytes s.pendReads s with
    | none => s.ret .windowFull []
    | some (q, s') => s'.clearPending.ret .ok [q]

/-- RTSUB(recs) (R191). -/
def submitRealtime (rs : List Request) (s : State) : State :=
  if s.fatal then s.ret .linkDown []
  else
    match rtPayload rs with
    | .error c => s.ret c []
    | .ok p =>
      if Config.maxDSize < p.length then s.ret .payloadTooLarge []
      else
        { s with rtFrame := encodeFrame s.params.rtSeq .cmd true p, rtPending := true }.ret .ok []

/-- TXRT() (R192): not enabled in FATAL or with nothing pending. -/
def transmitRealtime (s : State) : State :=
  if s.fatal = true ∨ s.rtPending = false then s
  else { s.emit (.tx s.rtFrame) with rtPending := false }

end Sys2Proof.Machine
end

