-- ==== Sys2Proof/Machine/Flags.lean ====
section
/-!
DEFINITION. The block's status flags and the STATUS read-out (spec/10_state.md R34, R37,
spec/30_encoding.md R88, spec/45_control.md R232). There are no condition codes (R37).
-/

namespace Sys2Proof.Machine

/-- `link_degraded = (crc_error_counter >= CRC_HEALTH_THRESHOLD)` (R34). -/
def linkDegraded (s : State) : Bool := decide (s.params.crcHealthThreshold ≤ s.crcErrors)

/-- A boolean as bit `k` of a byte (R232). -/
def flagBit (b : Bool) (k : Nat) : Byte := if b then 1#8 <<< k else 0x00#8

/-- STATUS byte 10 (R88). -/
def statusFlags (s : State) : Byte :=
  flagBit s.fatal 0 ||| flagBit (decide (s.rxState = .ploadCrc)) 1 ||| flagBit s.rtPending 2
    ||| flagBit (linkDegraded s) 3

/-- The code of a fatal cause (R263). -/
def causeByte : FatalCause → Byte
  | .none => 0x00#8
  | .linkTimeout => 0x01#8
  | .maxRetransmitExceeded => 0x02#8
  | .ioError => 0x03#8

/-- The 16 status bytes (R88, R232). -/
def statusBytes (s : State) : List Byte :=
  [s.sn, s.sb, s.sm, s.rn, BitVec.ofNat 8 (window s), BitVec.ofNat 8 s.retxCount]
    ++ be32 s.crcErrors ++ [statusFlags s, causeByte s.fatalCause]
    ++ be16 (BitVec.ofNat 16 s.pendBytes.length) ++ be16 (BitVec.ofNat 16 s.pendResp)

end Sys2Proof.Machine
end

