-- ==== Sys2Proof/Machine/HostPort.lean ====
section
/-!
DEFINITION. The meanings of the host words (spec/opcode_table.json format "host word"): each ends with
exactly one result (R250).
-/

namespace Sys2Proof.Machine

/-- QCMD (R132). -/
def execQcmd (r : Request) (s : State) : Host.Outcome State Fault Refusal :=
  .next (queueCommand r s)

/-- FLUSH (R134). -/
def execFlush (s : State) : Host.Outcome State Fault Refusal :=
  .next (flushPending s)

/-- RDSH (R135): legal in every mode; writes nothing. -/
def execRdsh (addr n : Half) (s : State) : Host.Outcome State Fault Refusal :=
  if addr.toNat + n.toNat > Config.shadowSize then .next (s.ret .addressOutOfRange [])
  else .next (s.ret .ok (memRead s addr.toNat n.toNat))

/-- RTSUB (R191). -/
def execRtsub (rs : List Request) (s : State) : Host.Outcome State Fault Refusal :=
  .next (submitRealtime rs s)

/-- CHRST (R231). -/
def execChrst (s : State) : Host.Outcome State Fault Refusal :=
  .next ((channelReset s).ret .ok [])

/-- STATUS (R232). -/
def execStatus (s : State) : Host.Outcome State Fault Refusal :=
  .next (s.ret .ok (statusBytes s))

/-- An illegal host word (R234): ILLEGAL_OP in every mode, whatever the word holds. -/
def execIllegal (_w : List Byte) (s : State) : Host.Outcome State Fault Refusal :=
  .next (s.ret .illegalOp [])

end Sys2Proof.Machine
end

