-- ==== Sys2Proof/Machine/PortEvents.lean ====
section
/-!
DEFINITION. The meanings of the port events (spec/opcode_table.json format "port event", R92): none
returns a result.
-/

namespace Sys2Proof.Machine

/-- RX_BYTE(b) (R106). -/
def execRxByte (b : Byte) (s : State) : Host.Outcome State Fault Refusal :=
  finish (receiveByte b s)

/-- TIMEOUT (R171). -/
def execTimeout (s : State) : Host.Outcome State Fault Refusal :=
  if s.fatal then .next s else finish (recover .timeout s)

/-- IOERR (R233). -/
def execIoerr (s : State) : Host.Outcome State Fault Refusal :=
  .next (raiseFatal .ioError s)

/-- TXRT (R192); a TXRT that is not enabled is no step: nothing changes (notes/assumptions/3.md). -/
def execTxrt (s : State) : Host.Outcome State Fault Refusal :=
  .next (transmitRealtime s)

/-- POR (R280): no event, no result. -/
def execPor (s : State) : Host.Outcome State Fault Refusal :=
  .next (powerOnReset s)

end Sys2Proof.Machine
end

