-- ==== Sys2Proof/Machine/Pseudo.lean ====
section
/-!
DEFINITION. The meanings of the pseudo-operations (spec/opcode_table.json format "pseudo", R94): the
expansion's operations in order, with no other agent's step between them.
DESIGN CHOICE (notes/assumptions/12.md).
-/

namespace Sys2Proof.Machine

/-- `WR addr, [d..]` = `QCMD WRITE.AI addr, [d..]` (R94). -/
def execWr (a : Half) (d : List Byte) (s : State) : Host.Outcome State Fault Refusal :=
  .next (queueCommand (.write .ai a d) s)

/-- `RD addr, n` = `QCMD READ.AI addr, n` (R94). -/
def execRd (a n : Half) (s : State) : Host.Outcome State Fault Refusal :=
  .next (queueCommand (.read .ai a n) s)

/-- `PUSH addr, [d..]` = `QCMD WRITE.FIFO addr, [d..]` (R94). -/
def execPush (a : Half) (d : List Byte) (s : State) : Host.Outcome State Fault Refusal :=
  .next (queueCommand (.write .fifo a d) s)

/-- `WRSYNC addr, [d..]` = `QCMD WRITE.AI addr, [d..]` then `FLUSH` (R94). -/
def execWrsync (a : Half) (d : List Byte) (s : State) : Host.Outcome State Fault Refusal :=
  .next (flushPending (queueCommand (.write .ai a d) s))

/-- `RDSYNC addr, n` = `QCMD READ.AI addr, n` then `FLUSH` (R94). -/
def execRdsync (a n : Half) (s : State) : Host.Outcome State Fault Refusal :=
  .next (flushPending (queueCommand (.read .ai a n) s))

/-- `POLL b0 b1 ...` = `RX b0 b1 ...`, one RX_BYTE per byte (R94, R111). -/
def execPoll (bs : List Byte) (s : State) : Host.Outcome State Fault Refusal :=
  finish (receiveBytes bs s)

end Sys2Proof.Machine
end

