-- ==== Sys2Proof/Machine/Records.lean ====
section
/-!
DEFINITION. The meanings of the command records (spec/opcode_table.json format "command record", R75,
R76): the record joins the pending frame as QCMD queues it (R93, R132). What the remote then does with it
is outside the block (R4). DESIGN CHOICE (notes/assumptions/10.md).
-/

namespace Sys2Proof.Machine

/-- The request of a READ record (R75, R130). -/
def readRequest (m : Mode) (a : RegAddr) (n : Nat) : Request :=
  .read m (a.setWidth 16) (BitVec.ofNat 16 n)

/-- The request of a WRITE record (R75, R130). -/
def writeRequest (m : Mode) (a : RegAddr) (d : List Byte) : Request :=
  .write m (a.setWidth 16) d

/-- READ.FIFO (R76, R138). -/
def execReadFifo (a : RegAddr) (n : Nat) (s : State) : Host.Outcome State Fault Refusal :=
  .next (queueCommand (readRequest .fifo a n) s)

/-- READ.AI (R76, R138). -/
def execReadAi (a : RegAddr) (n : Nat) (s : State) : Host.Outcome State Fault Refusal :=
  .next (queueCommand (readRequest .ai a n) s)

/-- WRITE.FIFO (R76, R138). -/
def execWriteFifo (a : RegAddr) (d : List Byte) (s : State) : Host.Outcome State Fault Refusal :=
  .next (queueCommand (writeRequest .fifo a d) s)

/-- WRITE.AI (R76, R138). -/
def execWriteAi (a : RegAddr) (d : List Byte) (s : State) : Host.Outcome State Fault Refusal :=
  .next (queueCommand (writeRequest .ai a d) s)

end Sys2Proof.Machine
end

