-- ==== Sys2Proof/Machine/Dispatch.lean ====
section
/-!
DEFINITION. The dispatch of every operation to its meaning, one arm per row of spec/opcode_table.json.
-/

namespace Sys2Proof.Machine

def exec (i : Instr) (s : State) : Host.Outcome State Fault Refusal :=
  match i with
  | .qcmd r => Sys2Proof.Machine.execQcmd r s
  | .flush => Sys2Proof.Machine.execFlush s
  | .rdsh addr n => Sys2Proof.Machine.execRdsh addr n s
  | .rtsub rs => Sys2Proof.Machine.execRtsub rs s
  | .chrst => Sys2Proof.Machine.execChrst s
  | .status => Sys2Proof.Machine.execStatus s
  | .illegal w => Sys2Proof.Machine.execIllegal w s
  | .rxByte b => Sys2Proof.Machine.execRxByte b s
  | .timeout => Sys2Proof.Machine.execTimeout s
  | .ioerr => Sys2Proof.Machine.execIoerr s
  | .txrt => Sys2Proof.Machine.execTxrt s
  | .por => Sys2Proof.Machine.execPor s
  | .readFifo addr n => Sys2Proof.Machine.execReadFifo addr n s
  | .readAi addr n => Sys2Proof.Machine.execReadAi addr n s
  | .writeFifo addr data => Sys2Proof.Machine.execWriteFifo addr data s
  | .writeAi addr data => Sys2Proof.Machine.execWriteAi addr data s
  | .frameCmd seq payload => Sys2Proof.Machine.execFrameCmd seq payload s
  | .frameCmdRt seq payload => Sys2Proof.Machine.execFrameCmdRt seq payload s
  | .frameAck seq payload => Sys2Proof.Machine.execFrameAck seq payload s
  | .frameMailbox seq payload => Sys2Proof.Machine.execFrameMailbox seq payload s
  | .frameRtResult tag seq payload => Sys2Proof.Machine.execFrameRtResult tag seq payload s
  | .frameReserved h0 h1 h2 h3 => Sys2Proof.Machine.execFrameReserved h0 h1 h2 h3 s
  | .wr addr data => Sys2Proof.Machine.execWr addr data s
  | .rd addr n => Sys2Proof.Machine.execRd addr n s
  | .push addr data => Sys2Proof.Machine.execPush addr data s
  | .wrsync addr data => Sys2Proof.Machine.execWrsync addr data s
  | .rdsync addr n => Sys2Proof.Machine.execRdsync addr n s
  | .poll bytes => Sys2Proof.Machine.execPoll bytes s

end Sys2Proof.Machine
end

