-- ==== Sys2Proof/Machine/Step.lean ====
section
/-!
DEFINITION. One step of the block: the oldest input a port presents is taken, decoded and run (R60,
R255). With no input waiting the only agent left is the transmit arbiter inside the block, and the step is
TXRT. DESIGN CHOICE (notes/assumptions/2.md, 3.md, 4.md).
-/

namespace Sys2Proof.Machine

/-- One step. -/
def step (s : State) : Host.Outcome State Fault Refusal :=
  match s.inputs with
  | [] => exec .txrt s
  | x :: rest =>
    match decode x with
    | .ok i => exec i { s with inputs := rest }
    | .error why => .refused (.malformedRecord why)

/-- `s` with the table's word presented as the next input (notes/assumptions/4.md, 13.md). -/
def State.withFetchWord (s : State) (nbits w : Nat) : State :=
  match tableInput nbits w with
  | some x => { s with inputs := x :: s.inputs }
  | none => s

end Sys2Proof.Machine
end

