-- ==== Sys2Proof/Safety.lean ====
section
/-!
DEFINITION. What counts as a safe state of the block: the invariants the spec states (R6, R25, R27, R29,
R32, R35, R36, R50) and those its record and frame rules give (R26, R30, R131), together as `Inv`; and the
words the statements use: a deframer at a frame boundary, the events of a recovery round, the record and
header bytes written as numbers, and where the read data of an acknowledgement goes.
-/

namespace Sys2Proof.Machine

/-! ### Invariants -/

/-- R6: CRC_HEALTH_THRESHOLD is 1..2^32-1. (MAX_RETX 0..255 and RT_SEQ fill their types.) -/
def ParamsOk (p : Params) : Prop := 1 ≤ p.crcHealthThreshold.toNat

/-- R25: `0 <= w <= WINDOW_SIZE`. -/
def WindowOk (s : State) : Prop := window s ≤ 64

/-- R27: an outstanding number is held in its slot, and an occupied slot holds an outstanding number. -/
def StoreOk (s : State) : Prop :=
  (∀ q, outstanding s q = true → (s.slot q).occupied = true ∧ (s.slot q).seq = q)
  ∧ ∀ k : Fin Config.storeSize, s.store[k].occupied = true →
      slotIndex s.store[k].seq = k ∧ outstanding s s.store[k].seq = true

/-- A READ list every rule of the batcher allows (R131, R133): each record reads 1 to 256 bytes inside the
register space, and together they fill at most one inbound payload. -/
def ReadsOk (reads : List ReadRec) : Prop :=
  (∀ r ∈ reads, 1 ≤ r.n ∧ r.n ≤ 256 ∧ r.addr.toNat + r.n ≤ 16384) ∧ readTotal reads ≤ 256

/-- R26: an occupied slot holds the frame SUBMIT encoded for its number, and a READ list of the batcher. -/
def SlotsOk (s : State) : Prop :=
  ∀ k : Fin Config.storeSize, s.store[k].occupied = true →
    (∃ p, p.length ≤ 256 ∧ s.store[k].frame = encodeFrame s.store[k].seq .cmd false p)
      ∧ ReadsOk s.store[k].reads

/-- R28, R29: the pending frame fits, and `pend_resp` is the sum over `pend_reads`. -/
def PendingOk (s : State) : Prop :=
  s.pendBytes.length ≤ 256 ∧ s.pendResp ≤ 256 ∧ s.pendResp = readTotal s.pendReads
    ∧ ReadsOk s.pendReads ∧ (s.pendBytes = [] → s.pendReads = [] ∧ s.pendResp = 0)

/-- R30: while the slot is pending it holds an encoded realtime frame. -/
def RealtimeOk (s : State) : Prop :=
  s.rtPending = true → ∃ p, p.length ≤ 256 ∧ s.rtFrame = encodeFrame s.params.rtSeq .cmd true p

/-- R32. -/
def DeframerOk (s : State) : Prop :=
  match s.rxState with
  | .sync => s.rxBuf.length ≤ 3 ∧ s.rxNeed = 0
  | .ploadCrc =>
    hdrValid (s.rxBuf.getD 1 0#8) (s.rxBuf.getD 2 0#8) (s.rxBuf.getD 3 0#8) = true
      ∧ s.rxNeed = headerLen (s.rxBuf.getD 2 0#8) (s.rxBuf.getD 3 0#8) + 2
      ∧ 4 ≤ s.rxBuf.length ∧ s.rxBuf.length < 4 + s.rxNeed

/-- The invariant of one block instance. -/
structure Inv (s : State) : Prop where
  /-- R25 -/
  window : WindowOk s
  /-- R21: `Sn = Sm` -/
  sn : s.sn = s.sm
  /-- R27 -/
  store : StoreOk s
  /-- R26 -/
  slots : SlotsOk s
  /-- R29 -/
  pending : PendingOk s
  /-- R30 -/
  realtime : RealtimeOk s
  /-- R32 -/
  deframer : DeframerOk s
  /-- R35: `0..MAX_RETX` -/
  retx : s.retxCount ≤ s.params.maxRetx.toNat
  /-- R36: `fatal_cause = NONE` exactly when `fatal = 0` -/
  cause : s.fatalCause = .none ↔ s.fatal = false
  /-- the shadow's canonical form (R50) -/
  shadow : Memory.wf s.shadow
  /-- R6: the instance's parameters are in their ranges -/
  params : ParamsOk s.params

/-! ### Words of the statements -/

/-- RUN mode with the deframer at a frame boundary: SYNC with an empty buffer (R112, R259). -/
def RxReady (s : State) : Prop :=
  s.fatal = false ∧ s.rxState = .sync ∧ s.rxBuf = [] ∧ s.rxNeed = 0

/-- `s` with one more output: what an operation that writes no state leaves. -/
def State.answers (s : State) (os : List Output) : State := { s with history := s.history ++ os }

/-- The TX events of one recovery round: the frames of Sb, Sb + 1, …, Sm - 1, in that order (R168). -/
def resendEvents (s : State) : List Output :=
  (List.range (Machine.window s)).map fun k => .event (.tx (s.slot (s.sb + BitVec.ofNat 8 k)).frame)

/-- What RECOVER leaves (R168, R169), given the cause its trigger raises at the limit. -/
def State.recovered (s : State) (cause : FatalCause) : State :=
  if s.fatal = true ∨ Machine.window s = 0 then s
  else if s.params.maxRetx.toNat ≤ s.retxCount then
    { s with fatal := true, fatalCause := cause
             history := s.history ++ [.event (.fatal cause s.sb s.sm s.rn s.crcErrors s.retxCount)] }
  else { s with retxCount := s.retxCount + 1, history := s.history ++ resendEvents s }

/-- A command record as R75 numbers its bytes. -/
def recordNumbers (w ai : Bool) (addr n : Nat) (d : List Byte) : List Byte :=
  [BitVec.ofNat 8 (128 * w.toNat + 64 * ai.toNat + addr / 256), BitVec.ofNat 8 (addr % 256),
    BitVec.ofNat 8 (n - 1)] ++ d

/-- The record of a request, as R75 numbers its bytes (R132). -/
def recordOf (r : Request) : List Byte :=
  recordNumbers r.isWrite (decide (r.mode = .ai)) r.addr.toNat r.len r.data

/-- The payload of a realtime request: its records of nonzero length, in order (R191, D11). -/
def realtimeRecords (rs : List Request) : List Byte :=
  (rs.filter fun r => decide (r.len ≠ 0)).flatMap recordOf

/-- A request fits the pending frame as R133 counts: outbound payload and read data, each at most 256. -/
def FitsPending (r : Request) (s : State) : Prop :=
  s.pendBytes.length + (3 + if r.isWrite then r.len else 0) ≤ 256
    ∧ s.pendResp + (if r.isWrite then 0 else r.len) ≤ 256

/-- SUBMIT answers WINDOW_FULL (R162, R163): 64 frames outstanding, or the slot of Sm busy. -/
def SubmitBlocked (s : State) : Prop := Machine.window s = 64 ∨ (s.slot s.sm).occupied = true

/-- What SUBMIT leaves when it answers OK (R161): the frame in the slot of Sm and on the wire, Sm and Sn one up. -/
def State.submitted (s : State) (p : List Byte) (reads : List ReadRec) : State :=
  { s with
    store := s.store.set (slotIndex s.sm)
      { occupied := true, seq := s.sm, frame := encodeFrame s.sm .cmd false p, reads := reads }
    sm := s.sm + 1#8, sn := s.sm + 1#8
    history := s.history ++ [.event (.tx (encodeFrame s.sm .cmd false p))] }

/-- The pending frame holds one record more (R132). -/
def State.queued (s : State) (r : Request) : State :=
  { s with
    pendBytes := s.pendBytes ++ recordOf r
    pendReads := s.pendReads
      ++ if r.isWrite then [] else [{ mode := r.mode, addr := BitVec.ofNat 14 r.addr.toNat, n := r.len }]
    pendResp := s.pendResp + if r.isWrite then 0 else r.len }

/-- The pending frame is empty (R132, R134). -/
def State.unpended (s : State) : State := { s with pendBytes := [], pendReads := [], pendResp := 0 }

/-- The tag values of R73. -/
def tagNumber : Tag → Byte
  | .cmd => 0xD0#8
  | .ack => 0xD1#8
  | .mailbox => 0xD2#8

/-- A header is valid as R105 and R74 number its bytes. -/
def HeaderOk (h1 h2 h3 : Byte) : Prop :=
  (h1.toNat = 0xD0 ∨ h1.toNat = 0xD1 ∨ h1.toNat = 0xD2) ∧ h3.toNat / 2 % 64 = 0
    ∧ h2.toNat + 256 * (h3.toNat % 2) ≤ 256

/-- The addresses the read data of a READ list goes to, in order (R214, R138). -/
def readTargets (reads : List ReadRec) : List Nat :=
  reads.flatMap fun r => (List.range r.n).map (effectiveAddr r.mode r.addr)

/-- What `a` reads as once bytes `p` have gone to the addresses `targets` in order: the last byte that
went there, or what it read as before. -/
def placed (targets : List Nat) (p : List Byte) (a : Nat) (before : Byte) : Byte :=
  (targets.zip p).foldl (fun v c => if c.1 = a then c.2 else v) before

/-- A request the record check lets through (R131, R132): at least one byte, inside the register space,
and small enough for a frame. -/
def Accepted (r : Request) : Prop :=
  1 ≤ r.len ∧ r.addr.toNat + r.len ≤ 16384 ∧ r.len ≤ (if r.isWrite then 253 else 256)

end Sys2Proof.Machine
end

