-- ==== Sys2Proof/Certificates/Slice0/Obligations.lean ====
section
/-!
DEFINITION. The statements for the provers, about the machine, from the numbered rules of spec/. A
statement whose conclusion is `exec i s = .next t` with `t` written out says at once what the operation
does, that it completes, and its frame: every field the right side does not name is unchanged, the
shadow's bytes and the frame store among them.
-/

open Sys2Proof Sys2Proof.Machine

/-! ### Encodings -/

/-- Words written out bit by bit from spec/30_encoding.md decode to the operation they stand for (R75,
R83 to R88, R71): H1 to H5, E7 to E9, E5 and E12 of spec/95, and an illegal word. -/
def Obligations.WordsOfTheSpecDecodeToTheirOperations : Prop :=
  decode (.host [0x01#8, 0xC0#8, 0x00#8, 0xFC#8, 0x00#8, 0x04#8, 0x8B#8, 0x8B#8, 0x00#8, 0x00#8])
      = .ok (.qcmd (.write .ai 0x00FC#16 [0x8B#8, 0x8B#8, 0x00#8, 0x00#8]))
  ∧ decode (.host [0x02#8]) = .ok .flush
  ∧ decode (.host [0x03#8, 0x00#8, 0x20#8, 0x00#8, 0x04#8]) = .ok (.rdsh 0x0020#16 0x0004#16)
  ∧ decode (.host [0x04#8, 0x01#8, 0x40#8, 0x00#8, 0x80#8, 0x00#8, 0x02#8])
      = .ok (.rtsub [.read .ai 0x0080#16 0x0002#16])
  ∧ decode (.host [0x05#8]) = .ok .chrst
  ∧ decode (.host [0x06#8]) = .ok .status
  ∧ decode (.host [0x02#8, 0x00#8]) = .ok (.illegal [0x02#8, 0x00#8])
  ∧ decode (.record [0x40#8, 0x20#8, 0x03#8]) = .ok (.readAi 0x0020#14 4)
  ∧ decode (.record [0x3F#8, 0xFF#8, 0xFF#8]) = .ok (.readFifo 0x3FFF#14 256)
  ∧ decode (.record [0x80#8, 0x21#8, 0x00#8, 0x55#8]) = .ok (.writeFifo 0x0021#14 [0x55#8])
  ∧ decode (.wire [0x01#8, 0xD1#8, 0x00#8, 0x00#8, 0xA0#8, 0xD0#8]) = .ok (.frameAck 0x01#8 [])
  ∧ decode (.wire [0x00#8, 0xD1#8, 0x01#8, 0x80#8, 0xAA#8, 0xF7#8, 0xB3#8])
      = .ok (.frameRtResult .ack 0x00#8 [0xAA#8])
  ∧ decode (.wire [0x00#8, 0xD0#8, 0x01#8, 0x01#8]) = .ok (.frameReserved 0x00#8 0xD0#8 0x01#8 0x01#8)

/-- Decoding an encoded well-formed instruction gives it back, whatever its operands: no bit of an
encoding of R71, R75 or R83 to R88 is dropped. -/
def Obligations.DecodeOfEncodeGivesTheInstructionBack : Prop :=
  ∀ i : Instr, i.wellFormed = true → decode (encode i) = .ok i

/-- What the decoder answers is an instruction the encodings can carry: for every host word, record, chunk
and signal, and for a pseudo-operation whose data fits the length field of its expansion (R83, R94). -/
def Obligations.DecoderAnswersWellFormedInstructions : Prop :=
  ∀ (x : Input) (i : Instr),
    (match x with
      | .line (.wr _ d) | .line (.push _ d) | .line (.wrsync _ d) => d.length < 65536
      | _ => True) →
    decode x = .ok i → i.wellFormed = true

/-- R89: a host word is illegal exactly when it is empty, its opcode is not one of 0x01..0x06, an opm
byte has a bit of 5:0 set, or its length is not the exact one; then the operation is ILLEGAL on it, which
changes no state and returns ILLEGAL_OP with empty data. -/
def Obligations.IllegalHostWordsAreThoseOfTheRule : Prop :=
  ∀ w : List Byte, (decodeHostWord w = .illegal w ↔ legalHostWord w = false)
    ∧ (∀ w', decodeHostWord w = .illegal w' → w' = w)
    ∧ ∀ s : State, legalHostWord w = false →
        exec (decodeHostWord w) s = .next (s.answers [.result [0x05#8]])

/-- R101: the CRC on numbers, bit by bit as the rule shifts it, and the rule's two values. -/
def Obligations.CrcFollowsItsRule : Prop :=
  (∀ s : List Byte, (crc s).toNat
      = s.foldl (fun c b =>
          (fun x => if x / 32768 = 1 then (2 * x ^^^ 0x1021) % 65536 else 2 * x % 65536)^[8] (c ^^^ (b.toNat * 256)))
        0xFFFF)
  ∧ crc [] = 0xFFFF#16
  ∧ crc [0x31#8, 0x32#8, 0x33#8, 0x34#8, 0x35#8, 0x36#8, 0x37#8, 0x38#8, 0x39#8] = 0x29B1#16

/-- R102, R104: ENCODE of a payload of at most 256 bytes is its four header bytes, the payload and the
CRC of both, high byte first: 6 bytes more than the payload. -/
def Obligations.EncodeLaysOutTheFrame : Prop :=
  ∀ (seq : Byte) (tag : Tag) (rt : Bool) (p : List Byte), p.length ≤ 256 →
    let h : List Byte := [seq, tagNumber tag, BitVec.ofNat 8 (p.length % 256), BitVec.ofNat 8 (128 * rt.toNat + p.length / 256)]
    encodeFrame seq tag rt p
        = h ++ p ++ [BitVec.ofNat 8 ((crc (h ++ p)).toNat / 256), BitVec.ofNat 8 ((crc (h ++ p)).toNat % 256)]
      ∧ (encodeFrame seq tag rt p).length = p.length + 6

/-- R105: the header test, on the numbers of R73 and R74. -/
def Obligations.HeaderTestIsTheRule : Prop :=
  ∀ h1 h2 h3 : Byte, hdrValid h1 h2 h3 = true ↔ HeaderOk h1 h2 h3

/-- R9: addition modulo 256, `dist` as the difference modulo 256, `before` as the positive signed
difference, which are the distances 1 to 127, and the window as `dist(Sb, Sm)`. -/
def Obligations.SequenceArithmeticIsModulo256 : Prop :=
  ∀ (a b : Byte) (k : Nat) (s : State),
    (a + BitVec.ofNat 8 k).toNat = (a.toNat + k) % 256
    ∧ dist a b = (b.toNat + 256 - a.toNat) % 256
    ∧ (before a b = true ↔ 0 < (b - a).toInt)
    ∧ (before a b = true ↔ 1 ≤ dist a b ∧ dist a b ≤ 127)
    ∧ window s = (s.sm.toNat + 256 - s.sb.toNat) % 256

/-- The acknowledgement test of R164 is the signed comparison the source asks for, whenever a frame is
outstanding. (With an empty window the two differ at distance 128 alone, where RECOVER does nothing.) -/
def Obligations.AcknowledgementTestIsTheSignedComparison : Prop :=
  ∀ sb sm r : Byte, 1 ≤ dist sb sm → dist sb sm ≤ 64 →
    (dist sb r ≤ dist sb sm ↔ before r sb = false ∧ before sm r = false)

/-! ### The step -/

/-- A step takes the oldest input, decodes it and runs the instruction on the state without that input;
with no input waiting the step is TXRT (notes/assumptions/2.md and 3.md: the model's own form). -/
def Obligations.StepRunsTheDecodedInstruction : Prop :=
  (∀ (s : State) (x : Input) (rest : List Input) (i : Instr), s.inputs = x :: rest → decode x = .ok i →
      step s = exec i { s with inputs := rest })
  ∧ ∀ s : State, s.inputs = [] → step s = exec .txrt s

/-- The one refusal of a step is for bytes presented as one command record that are none, as R75 and R77
lay a record out: 3 bytes for W = 0, `3 + n` for W = 1 with `n = byte2 + 1`. Fewer bytes than that are
truncated, more are trailing. The refusal is the model's choice (notes/assumptions/15.md); every other input
runs. -/
def Obligations.StepRefusesOnlyMalformedRecords : Prop :=
  ∀ (s : State) (why : Refusal), step s = .refused why ↔
    ∃ bytes rest, s.inputs = .record bytes :: rest ∧
      let w := 128 ≤ (bytes.getD 0 0x00#8).toNat
      let n := (bytes.getD 2 0x00#8).toNat + 1
      ((bytes.length < 3 ∨ w ∧ bytes.length < 3 + n) ∧ why = .malformedRecord .recordTruncated
        ∨ 3 ≤ bytes.length ∧ (w ∧ 3 + n < bytes.length ∨ ¬ w ∧ 3 < bytes.length)
          ∧ why = .malformedRecord .recordTrailing)

/-! ### Invariants -/

/-- The state after reset meets the invariant. -/
def Obligations.ResetMeetsTheInvariant : Prop := Inv State.reset

/-- The invariant of R6, R21, R25, R26, R27, R29, R30, R32, R35, R36 and R50 is kept by every step, from
every state that meets it. -/
def Obligations.EveryStepKeepsTheInvariant : Prop :=
  ∀ s t : State, Inv s → step s = .next t → Inv t

/-- From a state that meets the invariant every instruction completes, whatever its operands: no rule's
operation finds an empty slot or an address outside the shadow. -/
def Obligations.EveryInstructionCompletesUnderTheInvariant : Prop :=
  ∀ (s : State) (i : Instr), Inv s → ∃ t, exec i s = .next t ∧ Inv t

/-- R172: no instruction takes the window above 64. -/
def Obligations.WindowNeverExceedsItsSize : Prop :=
  ∀ (s t : State) (i : Instr), window s ≤ 64 → exec i s = .next t → window t ≤ 64

/-- R173: outstanding numbers sit in slots of their own, under the window and store invariants. -/
def Obligations.OutstandingFramesSitInSlotsOfTheirOwn : Prop :=
  ∀ (s : State) (q q' : Byte), WindowOk s → StoreOk s → outstanding s q = true → outstanding s q' = true →
    slotIndex q = slotIndex q' → q = q'

/-- R65: an outstanding frame held in a slot before and after an instruction has the same bytes. -/
def Obligations.SubmittedFramesAreImmutable : Prop :=
  ∀ (s t : State) (i : Instr) (k : Fin Config.storeSize), exec i s = .next t → s.store[k].occupied = true →
    t.store[k].occupied = true → t.store[k] = s.store[k]

/-- The output history only grows, and no instruction touches the instance's parameters or the inputs
still to come (R257, R20). -/
def Obligations.HistoryGrowsAndParametersStay : Prop :=
  ∀ (s t : State) (i : Instr), exec i s = .next t →
    (∃ os, t.history = s.history ++ os) ∧ t.params = s.params ∧ t.inputs = s.inputs

/-- Only POR lowers the CRC-error counter (R33, R280). -/
def Obligations.OnlyPowerOnLowersTheCrcCounter : Prop :=
  ∀ (s t : State) (i : Instr), i ≠ .por → exec i s = .next t → s.crcErrors.toNat ≤ t.crcErrors.toNat

/-- The shadow is written only by received bytes and by POR (R51, R214): every other instruction leaves
every byte of it as it reads. -/
def Obligations.ShadowIsWrittenOnlyByReceivedBytesAndPowerOn : Prop :=
  ∀ (s t : State) (i : Instr) (a : Nat), exec i s = .next t → t.shadow.read a ≠ s.shadow.read a →
    match i with
    | .por | .rxByte _ | .poll _ | .frameCmd _ _ | .frameCmdRt _ _ | .frameAck _ _ | .frameMailbox _ _
    | .frameRtResult _ _ _ | .frameReserved _ _ _ _ => True
    | _ => False

/-- R262: CHRST and POR leave FATAL; no other instruction does, and none changes the first cause. -/
def Obligations.OnlyResetsLeaveFatal : Prop :=
  (∀ (s t : State) (i : Instr), s.fatal = true → i ≠ .chrst → i ≠ .por → exec i s = .next t →
      t.fatal = true ∧ t.fatalCause = s.fatalCause)
  ∧ ∀ s : State, ∃ t u, exec .chrst s = .next t ∧ t.fatal = false ∧ exec .por s = .next u ∧ u.fatal = false

/-- In FATAL (R261, R114): received bytes, frames, TIMEOUT, IOERR and TXRT change nothing at all. -/
def Obligations.PortEventsDoNothingInFatal : Prop :=
  ∀ (s : State) (i : Instr), s.fatal = true →
    (match i with
      | .timeout | .ioerr | .txrt | .rxByte _ | .poll _ | .frameCmd _ _ | .frameCmdRt _ _ | .frameAck _ _
      | .frameMailbox _ _ | .frameRtResult _ _ _ | .frameReserved _ _ _ _ => True
      | _ => False) → exec i s = .next s

/-- A host operation whose result is an error changes no state and emits no event (R269): the one new
output is the result. -/
def Obligations.ErrorResultsChangeNothing : Prop :=
  ∀ (s t : State) (i : Instr) (c : Byte) (d : List Byte),
    (match i with
      | .qcmd _ | .flush | .rdsh _ _ | .rtsub _ | .chrst | .status | .illegal _ => True
      | _ => False) →
    exec i s = .next t → t.history.getLast? = some (.result (c :: d)) → c ≠ 0x00#8 →
    d = [] ∧ t = s.answers [.result [c]]

/-! ### Host operations -/

/-- QCMD, every case of R132 in its order. -/
def Obligations.QcmdFollowsItsRule : Prop :=
  ∀ (r : Request) (s : State),
    (s.fatal = true → exec (.qcmd r) s = .next (s.answers [.result [0x04#8]]))
    ∧ (s.fatal = false → r.len = 0 → exec (.qcmd r) s = .next (s.answers [.result [0x00#8]]))
    ∧ (s.fatal = false → r.len ≠ 0 → 16384 < r.addr.toNat + r.len →
        exec (.qcmd r) s = .next (s.answers [.result [0x02#8]]))
    ∧ (s.fatal = false → r.addr.toNat + r.len ≤ 16384 → (if r.isWrite then 253 else 256) < r.len →
        exec (.qcmd r) s = .next (s.answers [.result [0x03#8]]))
    ∧ (s.fatal = false → Accepted r → s.pendBytes = [] ∨ FitsPending r s →
        exec (.qcmd r) s = .next ((s.queued r).answers [.result [0x00#8]]))
    ∧ (s.fatal = false → Accepted r → s.pendBytes ≠ [] → ¬ FitsPending r s → SubmitBlocked s →
        exec (.qcmd r) s = .next (s.answers [.result [0x01#8]]))
    ∧ (s.fatal = false → Accepted r → s.pendBytes ≠ [] → ¬ FitsPending r s → ¬ SubmitBlocked s →
        exec (.qcmd r) s
          = .next ((((s.submitted s.pendBytes s.pendReads).unpended).queued r).answers [.result [0x00#8]]))

/-- FLUSH, every case of R134, with SUBMIT's window and slot tests (R162, R163). -/
def Obligations.FlushFollowsItsRule : Prop :=
  ∀ s : State,
    (s.fatal = true → exec .flush s = .next (s.answers [.result [0x04#8]]))
    ∧ (s.fatal = false → s.pendBytes = [] → exec .flush s = .next (s.answers [.result [0x00#8]]))
    ∧ (s.fatal = false → s.pendBytes ≠ [] → SubmitBlocked s →
        exec .flush s = .next (s.answers [.result [0x01#8]]))
    ∧ (s.fatal = false → s.pendBytes ≠ [] → ¬ SubmitBlocked s →
        exec .flush s
          = .next (((s.submitted s.pendBytes s.pendReads).unpended).answers [.result [0x00#8, s.sm]]))

/-- RDSH (R135): outside the shadow ADDRESS_OUT_OF_RANGE, else the n bytes from addr on, byte i what
`addr + i` reads as; in every mode, and nothing is written. -/
def Obligations.RdshReadsTheShadow : Prop :=
  ∀ (addr n : Half) (s : State),
    (16384 < addr.toNat + n.toNat → exec (.rdsh addr n) s = .next (s.answers [.result [0x02#8]]))
    ∧ (addr.toNat + n.toNat ≤ 16384 → ∃ d, exec (.rdsh addr n) s = .next (s.answers [.result (0x00#8 :: d)])
        ∧ d.length = n.toNat ∧ ∀ i < n.toNat, d[i]? = some (s.shadow.read (addr.toNat + i)))

/-- RTSUB, every case of R191: FATAL, the first failing record, the total, and the slot filled with the
frame of the records of nonzero length. -/
def Obligations.RtsubFollowsItsRule : Prop :=
  ∀ (rs : List Request) (s : State),
    (s.fatal = true → exec (.rtsub rs) s = .next (s.answers [.result [0x04#8]]))
    ∧ (∀ before r after, rs = before ++ r :: after → (∀ x ∈ before, x.len = 0 ∨ Accepted x) → s.fatal = false →
        r.len ≠ 0 → ¬ Accepted r →
        exec (.rtsub rs) s
          = .next (s.answers [.result [if 16384 < r.addr.toNat + r.len then 0x02#8 else 0x03#8]]))
    ∧ (s.fatal = false → (∀ x ∈ rs, x.len = 0 ∨ Accepted x) →
        256 < (realtimeRecords rs).length →
        exec (.rtsub rs) s = .next (s.answers [.result [0x03#8]]))
    ∧ (s.fatal = false → (∀ x ∈ rs, x.len = 0 ∨ Accepted x) →
        (realtimeRecords rs).length ≤ 256 →
        exec (.rtsub rs) s
          = .next ({ s with
              rtFrame := encodeFrame s.params.rtSeq .cmd true (realtimeRecords rs)
              rtPending := true }.answers [.result [0x00#8]]))

/-- CHRST (R231): the registers, the validity flags, the pending frame, the realtime flag, the deframer,
the count and the fatal state are as R40's CHRST column says; the CRC-error counter and every byte of the
shadow are kept; the result is OK and no event is emitted. -/
def Obligations.ChrstFollowsItsRule : Prop :=
  ∀ s : State, ∃ t, exec .chrst s = .next t
    ∧ t.sn = 0x00#8 ∧ t.sb = 0x00#8 ∧ t.sm = 0x00#8 ∧ t.rn = 0x00#8
    ∧ (∀ k : Fin Config.storeSize, t.store[k].occupied = false)
    ∧ t.pendBytes = [] ∧ t.pendReads = [] ∧ t.pendResp = 0 ∧ t.rtPending = false
    ∧ t.rxState = .sync ∧ t.rxBuf = [] ∧ t.rxNeed = 0
    ∧ t.retxCount = 0 ∧ t.fatal = false ∧ t.fatalCause = .none
    ∧ t.crcErrors = s.crcErrors ∧ (∀ a, t.shadow.read a = s.shadow.read a)
    ∧ t.history = s.history ++ [.result [0x00#8]]

/-- STATUS (R88, R232): the 16 bytes, each written as a number; in every mode, and nothing is written. -/
def Obligations.StatusReportsTheState : Prop :=
  ∀ s : State, exec .status s = .next (s.answers [.result
    [0x00#8, s.sn, s.sb, s.sm, s.rn, BitVec.ofNat 8 ((s.sm.toNat + 256 - s.sb.toNat) % 256),
      BitVec.ofNat 8 s.retxCount,
      BitVec.ofNat 8 (s.crcErrors.toNat / 16777216), BitVec.ofNat 8 (s.crcErrors.toNat / 65536 % 256),
      BitVec.ofNat 8 (s.crcErrors.toNat / 256 % 256), BitVec.ofNat 8 (s.crcErrors.toNat % 256),
      BitVec.ofNat 8 (s.fatal.toNat + 2 * (decide (s.rxState = .ploadCrc)).toNat + 4 * s.rtPending.toNat
        + 8 * (decide (s.params.crcHealthThreshold.toNat ≤ s.crcErrors.toNat)).toNat),
      (match s.fatalCause with
        | .none => 0x00#8 | .linkTimeout => 0x01#8 | .maxRetransmitExceeded => 0x02#8 | .ioError => 0x03#8),
      BitVec.ofNat 8 (s.pendBytes.length / 256), BitVec.ofNat 8 (s.pendBytes.length % 256),
      BitVec.ofNat 8 (s.pendResp / 256), BitVec.ofNat 8 (s.pendResp % 256)]])

/-- An illegal host word (R234): in every mode the result is ILLEGAL_OP with empty data, and nothing else
changes. -/
def Obligations.IllegalWordsAnswerIllegalOp : Prop :=
  (∀ (w : List Byte) (s : State), exec (.illegal w) s = .next (s.answers [.result [0x05#8]]))
  ∧ ∀ (w : List Byte) (rest : List Input) (s : State), legalHostWord w = false →
      s.inputs = .host w :: rest →
      step s = .next { s with inputs := rest, history := s.history ++ [.result [0x05#8]] }

/-! ### Port events -/

/-- RX_BYTE in SYNC (R107): a window of fewer than four bytes waits; four bytes make a valid header, whose
length is recorded, or the buffer slides by one byte; nothing else changes. -/
def Obligations.SyncByteFollowsItsRule : Prop :=
  ∀ (b : Byte) (s : State), s.fatal = false → s.rxState = .sync →
    (s.rxBuf.length < 3 → exec (.rxByte b) s = .next { s with rxBuf := s.rxBuf ++ [b] })
    ∧ ∀ h0 h1 h2 h3 rest, s.rxBuf ++ [b] = h0 :: h1 :: h2 :: h3 :: rest →
      (HeaderOk h1 h2 h3 → exec (.rxByte b) s
        = .next { s with rxBuf := s.rxBuf ++ [b], rxState := .ploadCrc
                         rxNeed := h2.toNat + 256 * (h3.toNat % 2) + 2 })
      ∧ (¬ HeaderOk h1 h2 h3 → exec (.rxByte b) s = .next { s with rxBuf := [h1, h2, h3] })

/-- RX_BYTE in PLOAD_CRC (R108): a byte short of the announced length is kept and nothing is examined; with
the last one the deframer is in SYNC with an empty buffer, and the CRC of all but the last two bytes,
against those two, decides between FRAME_OK with the frame's fields (R109) and FRAME_BAD. -/
def Obligations.PayloadStepFollowsItsRule : Prop :=
  ∀ (b : Byte) (s : State), s.fatal = false → s.rxState = .ploadCrc →
    (s.rxBuf.length + 1 < 4 + s.rxNeed → exec (.rxByte b) s = .next { s with rxBuf := s.rxBuf ++ [b] })
    ∧ (4 + s.rxNeed ≤ s.rxBuf.length + 1 →
        let f := s.rxBuf ++ [b]
        let body := f.take (f.length - 2)
        let idle := { s with rxState := .sync, rxBuf := [], rxNeed := 0 }
        ((crc body).toNat = 256 * (f.getD (f.length - 2) 0x00#8).toNat + b.toNat →
          exec (.rxByte b) s
            = finish (dispatch (f.getD 0 0x00#8) (f.getD 1 0x00#8) (decide (128 ≤ (f.getD 3 0x00#8).toNat))
                (body.drop 4) idle))
        ∧ ((crc body).toNat ≠ 256 * (f.getD (f.length - 2) 0x00#8).toNat + b.toNat →
          exec (.rxByte b) s = finish (frameBad idle)))

/-- The last byte of a frame whose CRC does not match (R110): the counter goes up, saturating, CRC_ERROR
carries the new value, the deframer is in SYNC with an empty buffer, and RECOVER runs (R168, R169): the
outstanding frames are resent in order, or the block enters FATAL at the limit. -/
def Obligations.BadFrameIsCountedAndRecovered : Prop :=
  ∀ (b : Byte) (s : State), Inv s → s.fatal = false → s.rxState = .ploadCrc →
    s.rxBuf.length + 1 = 4 + s.rxNeed → candidateGood (s.rxBuf ++ [b]) = false →
    exec (.rxByte b) s = .next (State.recovered
      { s with
        rxState := .sync, rxBuf := [], rxNeed := 0
        crcErrors := BitVec.ofNat 32 (min (s.crcErrors.toNat + 1) 0xFFFFFFFF)
        history := s.history
          ++ [.event (.crcError (BitVec.ofNat 32 (min (s.crcErrors.toNat + 1) 0xFFFFFFFF)))] }
      .maxRetransmitExceeded)

/-- TIMEOUT (R171, R168, R169): nothing in FATAL or with nothing outstanding; at the limit FATAL with
LINK_TIMEOUT; else one more round, which resends the frames of Sb to Sm - 1 in order, and nothing else
changes. -/
def Obligations.TimeoutFollowsItsRule : Prop :=
  ∀ s : State, StoreOk s →
    (s.fatal = true ∨ window s = 0 → exec .timeout s = .next s)
    ∧ (s.fatal = false → window s ≠ 0 → s.params.maxRetx.toNat ≤ s.retxCount →
        exec .timeout s
          = .next ({ s with fatal := true, fatalCause := .linkTimeout }.answers
              [.event (.fatal .linkTimeout s.sb s.sm s.rn s.crcErrors s.retxCount)]))
    ∧ (s.fatal = false → window s ≠ 0 → s.retxCount < s.params.maxRetx.toNat →
        exec .timeout s
          = .next ({ s with retxCount := s.retxCount + 1 }.answers
              ((List.range (window s)).map fun k =>
                .event (.tx (s.store[slotIndex (s.sb + BitVec.ofNat 8 k)]).frame))))

/-- IOERR (R233, R260): in RUN the cause is IO_ERROR, the mode FATAL and the event carries the context; in
FATAL nothing. -/
def Obligations.IoerrEntersFatal : Prop :=
  ∀ s : State,
    (s.fatal = true → exec .ioerr s = .next s)
    ∧ (s.fatal = false → exec .ioerr s
        = .next ({ s with fatal := true, fatalCause := .ioError }.answers
            [.event (.fatal .ioError s.sb s.sm s.rn s.crcErrors s.retxCount)]))

/-- TXRT (R192): enabled, the slot's frame leaves and the flag clears, whatever the window; not enabled,
nothing happens. -/
def Obligations.TxrtSendsTheRealtimeFrame : Prop :=
  ∀ s : State,
    (s.fatal = false → s.rtPending = true →
      exec .txrt s = .next ({ s with rtPending := false }.answers [.event (.tx s.rtFrame)]))
    ∧ (s.fatal = true ∨ s.rtPending = false → exec .txrt s = .next s)

/-- POR (R280): R40's POR column, with every byte of the shadow 0x00 and the counter 0; no event, no
result. -/
def Obligations.PorFollowsItsRule : Prop :=
  ∀ s : State, ∃ t, exec .por s = .next t
    ∧ t.sn = 0x00#8 ∧ t.sb = 0x00#8 ∧ t.sm = 0x00#8 ∧ t.rn = 0x00#8
    ∧ (∀ k : Fin Config.storeSize, t.store[k].occupied = false)
    ∧ t.pendBytes = [] ∧ t.pendReads = [] ∧ t.pendResp = 0 ∧ t.rtPending = false
    ∧ t.rxState = .sync ∧ t.rxBuf = [] ∧ t.rxNeed = 0
    ∧ t.crcErrors = 0x00000000#32 ∧ t.retxCount = 0 ∧ t.fatal = false ∧ t.fatalCause = .none
    ∧ (∀ a, t.shadow.read a = 0x00#8) ∧ t.history = s.history

/-- POR and then STATUS answer OK and sixteen zero bytes, link_degraded among them: the counter is 0 and
CRC_HEALTH_THRESHOLD at least 1 (R280, R232, R34, R6), INIT_SEQ being 0. -/
def Obligations.StatusAfterPowerOnIsAllZero : Prop :=
  ∀ s : State, ParamsOk s.params →
    ∃ t, exec .por s = .next t
      ∧ exec .status t = .next (t.answers [.result (0x00#8 :: List.replicate 16 0x00#8)])

/-- R282: after either reset, and in the state after reset, the block is in RUN with nothing outstanding,
no pending records, no realtime frame and the deframer in SYNC with an empty buffer. -/
def Obligations.ResetsLeaveTheBlockReady : Prop :=
  (∀ (s t : State) (i : Instr), i = .chrst ∨ i = .por → exec i s = .next t →
      RxReady t ∧ window t = 0 ∧ t.pendBytes = [] ∧ t.rtPending = false)
  ∧ RxReady State.reset ∧ window State.reset = 0 ∧ State.reset.pendBytes = []
  ∧ State.reset.rtPending = false

/-! ### Received frames -/

/-- R112: the bytes of an encoded frame, fed to a deframer in SYNC with an empty buffer in RUN, reach
FRAME_OK with exactly its fields at the last byte; at no earlier byte does anything but the deframer
move. -/
def Obligations.EncodedFramesRoundTripThroughTheDeframer : Prop :=
  ∀ (seq : Byte) (tag : Tag) (rt : Bool) (p : List Byte) (s : State), RxReady s → p.length ≤ 256 →
    receiveBytes (encodeFrame seq tag rt p) s
        = dispatch seq (tagNumber tag) rt p s
      ∧ ∀ k < p.length + 6, ∃ st buf need,
          receiveBytes ((encodeFrame seq tag rt p).take k) s
            = .ok { s with rxState := st, rxBuf := buf, rxNeed := need }

/-- R111: the state after a chunk does not depend on how the chunk is cut (POLL runs its bytes in one step:
notes/assumptions/12.md). -/
def Obligations.ChunksMayBeCutAnywhere : Prop :=
  ∀ (a b : List Byte) (s : State), exec (.poll (a ++ b)) s
    = match exec (.poll a) s with
      | .next t => exec (.poll b) t
      | .fault e => .fault e
      | .refused e => .refused e

/-- R113 with its precondition of C5, for a stream of mailbox frames and an empty window: one frame whose
header bytes 1 to 3 are intact and whose CRC does not match costs its own bytes and one count, and every
other frame is delivered (POLL runs its bytes in one step: notes/assumptions/12.md). -/
def Obligations.OneCorruptedFrameCostsOneCount : Prop :=
  ∀ (before after : List (Byte × List Byte)) (bad : List Byte) (q : Byte) (tag : Tag) (rt : Bool)
    (p : List Byte) (s : State),
    RxReady s → window s = 0 → (∀ m ∈ before ++ after, m.2.length ≤ 256) → p.length ≤ 256 →
    bad.length = p.length + 6 → (bad.take 4).drop 1 = ((encodeFrame q tag rt p).take 4).drop 1 →
    candidateGood bad = false →
    let frame : Byte × List Byte → List Byte := fun m => encodeFrame m.1 .mailbox false m.2
    let count : Count := BitVec.ofNat 32 (min (s.crcErrors.toNat + 1) 0xFFFFFFFF)
    exec (.poll (before.flatMap frame ++ bad ++ after.flatMap frame)) s
      = .next ({ s with crcErrors := count }.answers
          ((before.map fun (m : Byte × List Byte) => Output.event (.mailbox m.2)) ++ [Output.event (.crcError count)]
            ++ after.map fun (m : Byte × List Byte) => Output.event (.mailbox m.2)))

/-- FRAME.MAILBOX (R212): the payload is passed on, and nothing else happens. The row runs as the arrival of
its bytes (notes/assumptions/11.md). -/
def Obligations.MailboxFrameIsPassedOn : Prop :=
  ∀ (seq : Byte) (p : List Byte) (s : State), RxReady s → p.length ≤ 256 →
    exec (.frameMailbox seq p) s = .next (s.answers [.event (.mailbox p)])

/-- A frame with RT = 1, whatever its tag and SEQ (R211): RT_RESULT with the raw payload, and nothing
else; the row FRAME.CMD.RT is such a frame where it arrives. The rows run as the arrival of their bytes
(notes/assumptions/11.md). -/
def Obligations.RealtimeFrameIsPassedOn : Prop :=
  ∀ (tag : Tag) (seq : Byte) (p : List Byte) (s : State), RxReady s → p.length ≤ 256 →
    exec (.frameRtResult tag seq p) s = .next (s.answers [.event (.rtResult p)])
      ∧ exec (.frameCmdRt seq p) s = .next (s.answers [.event (.rtResult p)])

/-- FRAME.CMD received inbound (R217): no event and no state change. The row runs as the arrival of its
bytes (notes/assumptions/11.md). -/
def Obligations.InboundCommandFrameIsDropped : Prop :=
  ∀ (seq : Byte) (p : List Byte) (s : State), RxReady s → p.length ≤ 256 →
    exec (.frameCmd seq p) s = .next s

/-- FRAME.RESERVED (R90, R107): four bytes that are no header slide by one; nothing is raised. The row runs
as the arrival of its bytes (notes/assumptions/11.md). -/
def Obligations.ReservedHeaderSlides : Prop :=
  ∀ (h0 h1 h2 h3 : Byte) (s : State), RxReady s → ¬ HeaderOk h1 h2 h3 →
    exec (.frameReserved h0 h1 h2 h3) s = .next { s with rxBuf := [h1, h2, h3] }

/-- FRAME.ACK that advances the window (R165, R213): Sb and Rn are the request number, the count is
cleared, exactly the slots of Sb .. r - 1 are freed, nothing is emitted, and no other register, flag or
buffer changes. The row runs as the arrival of its bytes (notes/assumptions/11.md), and that a freed slot
keeps its other fields is the model's choice (notes/assumptions/6.md). -/
def Obligations.AcknowledgementAdvancesTheWindow : Prop :=
  ∀ (r : Byte) (p : List Byte) (s : State), RxReady s → Inv s → p.length ≤ 256 →
    1 ≤ dist s.sb r → dist s.sb r ≤ window s →
    ∃ store shadow, exec (.frameAck r p) s
        = .next { s with sb := r, rn := r, retxCount := 0, store := store, shadow := shadow }
      ∧ (∀ q, dist s.sb q < dist s.sb r → store[slotIndex q] = { s.slot q with occupied := false })
      ∧ ∀ k : Fin Config.storeSize, (∀ q, dist s.sb q < dist s.sb r → slotIndex q ≠ k) → store[k] = s.store[k]

/-- The shadow after an advancing FRAME.ACK (R213, R214, R216): where the payload is as long as the READ
records of frame r - 1 ask for, each address reads the last byte placed there in record order; else every
address reads as before. The row runs as the arrival of its bytes (notes/assumptions/11.md). -/
def Obligations.AcknowledgedReadDataReachesTheShadow : Prop :=
  ∀ (r : Byte) (p : List Byte) (s : State), RxReady s → Inv s → p.length ≤ 256 →
    1 ≤ dist s.sb r → dist s.sb r ≤ window s →
    ∃ t, exec (.frameAck r p) s = .next t ∧ ∀ a,
      t.shadow.read a
        = if p.length = readTotal (s.slot (r - 1#8)).reads then
            placed (readTargets (s.slot (r - 1#8)).reads) p a (s.shadow.read a)
          else s.shadow.read a

/-- R215: a single READ.AI record puts byte i at addr + i; a single READ.FIFO record leaves its last byte
at addr; every other address reads as before. The row runs as the arrival of its bytes
(notes/assumptions/11.md). -/
def Obligations.ReadDataLandsByMode : Prop :=
  ∀ (r : Byte) (p : List Byte) (s : State) (m : Mode) (addr : RegAddr), RxReady s → Inv s →
    1 ≤ dist s.sb r → dist s.sb r ≤ window s →
    (s.slot (r - 1#8)).reads = [{ mode := m, addr := addr, n := p.length }] →
    ∃ t, exec (.frameAck r p) s = .next t ∧
      match m with
      | .ai => ∀ a, t.shadow.read a
          = if addr.toNat ≤ a ∧ a < addr.toNat + p.length then p.getD (a - addr.toNat) 0x00#8
            else s.shadow.read a
      | .fifo => ∀ a, t.shadow.read a
          = if a = addr.toNat then p.getD (p.length - 1) 0x00#8 else s.shadow.read a

/-- FRAME.ACK with r = Sb (R166, R216): only Rn is written, and its payload is dropped. The row runs as the
arrival of its bytes (notes/assumptions/11.md). -/
def Obligations.DuplicateAcknowledgementWritesRnOnly : Prop :=
  ∀ (p : List Byte) (s : State), RxReady s → p.length ≤ 256 →
    exec (.frameAck s.sb p) s = .next { s with rn := s.sb }

/-- FRAME.ACK beyond the window (R167, R216): Rn, then recovery, whose limit raises
MAX_RETRANSMIT_EXCEEDED (R169); its payload is dropped. The row runs as the arrival of its bytes
(notes/assumptions/11.md). -/
def Obligations.OutOfOrderAcknowledgementRecovers : Prop :=
  ∀ (r : Byte) (p : List Byte) (s : State), RxReady s → StoreOk s → p.length ≤ 256 → window s < dist s.sb r →
    exec (.frameAck r p) s = .next (State.recovered { s with rn := r } .maxRetransmitExceeded)

/-! ### The realtime path -/

/-- R193: of two RTSUBs with no TXRT between, only the second's frame is transmitted, and only once. -/
def Obligations.LatestRealtimeFrameOverwritesEarliest : Prop :=
  ∀ (a b : List Request) (pa pb : List Byte) (s : State), s.fatal = false →
    rtPayload a = .ok pa → pa.length ≤ 256 → rtPayload b = .ok pb → pb.length ≤ 256 →
    ∃ t1 t2 t3, exec (.rtsub a) s = .next t1 ∧ exec (.rtsub b) t1 = .next t2 ∧ exec .txrt t2 = .next t3
      ∧ t3.history = s.history ++ [.result [0x00#8], .result [0x00#8],
          .event (.tx (encodeFrame s.params.rtSeq .cmd true pb))]
      ∧ exec .txrt t3 = .next t3

/-- R190: RTSUB and TXRT write neither the sequence registers, the store and the retransmission count nor
the pending frame, nor the deframer, the counters, the fatal state or any byte of the shadow. -/
def Obligations.RealtimePathLeavesTheBulkPathAlone : Prop :=
  ∀ (s t : State) (i : Instr), (match i with | .rtsub _ | .txrt => True | _ => False) → exec i s = .next t →
    t.sn = s.sn ∧ t.sb = s.sb ∧ t.sm = s.sm ∧ t.rn = s.rn ∧ t.store = s.store
    ∧ t.retxCount = s.retxCount ∧ t.pendBytes = s.pendBytes ∧ t.pendReads = s.pendReads
    ∧ t.pendResp = s.pendResp ∧ t.rxState = s.rxState ∧ t.rxBuf = s.rxBuf ∧ t.rxNeed = s.rxNeed
    ∧ t.crcErrors = s.crcErrors ∧ t.fatal = s.fatal ∧ t.fatalCause = s.fatalCause
    ∧ ∀ a, t.shadow.read a = s.shadow.read a

/-! ### Records and pseudo-operations -/

/-- The command records (R75, R76, R77), with any operands and in every state: a record row is the QCMD of
its request (R132), so LINK_DOWN, ADDRESS_OUT_OF_RANGE, PAYLOAD_TOO_LARGE (a WRITE of 254 to 256 bytes has an
encoding and fits no frame: R131), the implicit flush and WINDOW_FULL are QCMD's; a record that fits joins
the pending frame with exactly its bytes, and a READ's data is expected at its address. That the block runs
a record by queueing it, and that it then has a result, are the model's choices (notes/assumptions/10.md,
19.md). -/
def Obligations.RecordsJoinThePendingFrame : Prop :=
  ∀ (addr : RegAddr) (n : Nat) (d : List Byte) (ai : Bool) (s : State),
    let mode : Mode := if ai then .ai else .fifo
    let read : Instr := if ai then .readAi addr n else .readFifo addr n
    let write : Instr := if ai then .writeAi addr d else .writeFifo addr d
    exec read s = exec (.qcmd (.read mode (BitVec.ofNat 16 addr.toNat) (BitVec.ofNat 16 n))) s
    ∧ exec write s = exec (.qcmd (.write mode (BitVec.ofNat 16 addr.toNat) d)) s
    ∧ (s.fatal = true → exec read s = .next (s.answers [.result [0x04#8]])
        ∧ exec write s = .next (s.answers [.result [0x04#8]]))
    ∧ (s.fatal = false → 1 ≤ n → n ≤ 256 →
        (16384 < addr.toNat + n → exec read s = .next (s.answers [.result [0x02#8]]))
        ∧ (addr.toNat + n ≤ 16384 →
            (s.pendBytes = [] ∨ s.pendBytes.length + 3 ≤ 256 ∧ s.pendResp + n ≤ 256) →
            exec read s
              = .next (State.answers { s with
                  pendBytes := s.pendBytes ++ recordNumbers false ai addr.toNat n []
                  pendReads := s.pendReads ++ [{ mode := mode, addr := addr, n := n }]
                  pendResp := s.pendResp + n } [.result [0x00#8]])))
    ∧ (s.fatal = false → 1 ≤ d.length → d.length ≤ 256 →
        (16384 < addr.toNat + d.length → exec write s = .next (s.answers [.result [0x02#8]]))
        ∧ (addr.toNat + d.length ≤ 16384 → 253 < d.length →
            exec write s = .next (s.answers [.result [0x03#8]]))
        ∧ (addr.toNat + d.length ≤ 16384 → d.length ≤ 253 →
            (s.pendBytes = [] ∨ s.pendBytes.length + (3 + d.length) ≤ 256 ∧ s.pendResp ≤ 256) →
            exec write s
              = .next (State.answers { s with
                  pendBytes := s.pendBytes ++ recordNumbers true ai addr.toNat d.length d }
                    [.result [0x00#8]])))

/-- The pseudo-operations are their expansions (R94; notes/assumptions/12.md: with no other step between;
notes/assumptions/19.md: with the results of the operations they run):
WR, RD and PUSH are one QCMD, WRSYNC and RDSYNC a QCMD and then a FLUSH, POLL one RX_BYTE per byte. -/
def Obligations.PseudoOperationsAreTheirExpansions : Prop :=
  ∀ (a n : Half) (d bs : List Byte) (b : Byte) (s : State),
    exec (.wr a d) s = exec (.qcmd (.write .ai a d)) s
    ∧ exec (.rd a n) s = exec (.qcmd (.read .ai a n)) s
    ∧ exec (.push a d) s = exec (.qcmd (.write .fifo a d)) s
    ∧ (∀ t, exec (.qcmd (.write .ai a d)) s = .next t → exec (.wrsync a d) s = exec .flush t)
    ∧ (∀ t, exec (.qcmd (.read .ai a n)) s = .next t → exec (.rdsync a n) s = exec .flush t)
    ∧ exec (.poll []) s = .next s
    ∧ (∀ t, exec (.rxByte b) s = .next t → exec (.poll (b :: bs)) s = exec (.poll bs) t)

/-- WR, RD and PUSH queue their record (R94, R132): in RUN, for an access the record check lets through
that fits the pending frame. That the one step answers the QCMD's result is the model's choice
(notes/assumptions/12.md, 19.md). -/
def Obligations.WrRdAndPushQueueTheirRecord : Prop :=
  ∀ (a n : Half) (d : List Byte) (s : State), s.fatal = false →
    (Accepted (.write .ai a d) → s.pendBytes = [] ∨ FitsPending (.write .ai a d) s →
      exec (.wr a d) s = .next ({ s with
          pendBytes := s.pendBytes ++ recordNumbers true true a.toNat d.length d }.answers [.result [0x00#8]])
      ∧ exec (.push a d) s = .next ({ s with
          pendBytes := s.pendBytes ++ recordNumbers true false a.toNat d.length d }.answers [.result [0x00#8]]))
    ∧ (Accepted (.read .ai a n) → s.pendBytes = [] ∨ FitsPending (.read .ai a n) s →
      exec (.rd a n) s = .next ((s.queued (.read .ai a n)).answers [.result [0x00#8]]))

/-- WRSYNC and RDSYNC put their record on the wire at once (R94, R134, R63): in RUN, for an access the
record check lets through that fits the pending frame, with the window open. That one step runs both
operations, with no other agent's step between, and answers two results, the QCMD's and the FLUSH's, is the
model's choice (notes/assumptions/12.md, 19.md). -/
def Obligations.WrsyncAndRdsyncSendTheirRecord : Prop :=
  ∀ (a n : Half) (d : List Byte) (s : State), s.fatal = false → ¬ SubmitBlocked s →
    (Accepted (.write .ai a d) → s.pendBytes = [] ∨ FitsPending (.write .ai a d) s →
      exec (.wrsync a d) s
        = .next ((((s.answers [.result [0x00#8]]).submitted
            (s.pendBytes ++ recordNumbers true true a.toNat d.length d) s.pendReads).unpended).answers
              [.result [0x00#8, s.sm]]))
    ∧ (Accepted (.read .ai a n) → s.pendBytes = [] ∨ FitsPending (.read .ai a n) s →
      exec (.rdsync a n) s
        = .next ((((s.answers [.result [0x00#8]]).submitted
            (s.pendBytes ++ recordNumbers false true a.toNat n.toNat [])
            (s.pendReads ++ [{ mode := .ai, addr := BitVec.ofNat 14 a.toNat, n := n.toNat }])).unpended).answers
              [.result [0x00#8, s.sm]]))
end

