-- ==== Sys2Proof/Laws/State.lean ====
section
/-!
SUPPORT. One lemma per field per named update of the state, each true by `rfl` (or by one induction, for
the loop `freeSlots`), so that no later proof unfolds a record update.
-/

namespace Sys2Proof.Machine

/-! ### Outputs -/

@[simp] theorem State.emit_eq (s : State) (e : Event) : s.emit e = s.log (.event e) := rfl
@[simp] theorem State.ret_eq (s : State) (c : ResultCode) (d : List Byte) :
    s.ret c d = s.log (.result (codeByte c :: d)) := rfl

@[simp] theorem State.log_sn (s : State) (o : Output) : (s.log o).sn = s.sn := rfl
@[simp] theorem State.log_sb (s : State) (o : Output) : (s.log o).sb = s.sb := rfl
@[simp] theorem State.log_sm (s : State) (o : Output) : (s.log o).sm = s.sm := rfl
@[simp] theorem State.log_rn (s : State) (o : Output) : (s.log o).rn = s.rn := rfl
@[simp] theorem State.log_store (s : State) (o : Output) : (s.log o).store = s.store := rfl
@[simp] theorem State.log_pendBytes (s : State) (o : Output) : (s.log o).pendBytes = s.pendBytes := rfl
@[simp] theorem State.log_pendReads (s : State) (o : Output) : (s.log o).pendReads = s.pendReads := rfl
@[simp] theorem State.log_pendResp (s : State) (o : Output) : (s.log o).pendResp = s.pendResp := rfl
@[simp] theorem State.log_rtFrame (s : State) (o : Output) : (s.log o).rtFrame = s.rtFrame := rfl
@[simp] theorem State.log_rtPending (s : State) (o : Output) : (s.log o).rtPending = s.rtPending := rfl
@[simp] theorem State.log_rxState (s : State) (o : Output) : (s.log o).rxState = s.rxState := rfl
@[simp] theorem State.log_rxBuf (s : State) (o : Output) : (s.log o).rxBuf = s.rxBuf := rfl
@[simp] theorem State.log_rxNeed (s : State) (o : Output) : (s.log o).rxNeed = s.rxNeed := rfl
@[simp] theorem State.log_crcErrors (s : State) (o : Output) : (s.log o).crcErrors = s.crcErrors := rfl
@[simp] theorem State.log_retxCount (s : State) (o : Output) : (s.log o).retxCount = s.retxCount := rfl
@[simp] theorem State.log_fatal (s : State) (o : Output) : (s.log o).fatal = s.fatal := rfl
@[simp] theorem State.log_fatalCause (s : State) (o : Output) : (s.log o).fatalCause = s.fatalCause := rfl
@[simp] theorem State.log_shadow (s : State) (o : Output) : (s.log o).shadow = s.shadow := rfl
@[simp] theorem State.log_params (s : State) (o : Output) : (s.log o).params = s.params := rfl
@[simp] theorem State.log_inputs (s : State) (o : Output) : (s.log o).inputs = s.inputs := rfl
@[simp] theorem State.log_history (s : State) (o : Output) : (s.log o).history = s.history ++ [o] := rfl

/-! ### The frame store -/

@[simp] theorem State.freeSlot_eq (s : State) (q : Byte) :
    s.freeSlot q = s.setSlot q { s.slot q with occupied := false } := rfl
@[simp] theorem State.setSlot_sn (s : State) (q : Byte) (v : Slot) : (s.setSlot q v).sn = s.sn := rfl
@[simp] theorem State.setSlot_sb (s : State) (q : Byte) (v : Slot) : (s.setSlot q v).sb = s.sb := rfl
@[simp] theorem State.setSlot_sm (s : State) (q : Byte) (v : Slot) : (s.setSlot q v).sm = s.sm := rfl
@[simp] theorem State.setSlot_rn (s : State) (q : Byte) (v : Slot) : (s.setSlot q v).rn = s.rn := rfl
@[simp] theorem State.setSlot_pendBytes (s : State) (q : Byte) (v : Slot) : (s.setSlot q v).pendBytes = s.pendBytes := rfl
@[simp] theorem State.setSlot_pendReads (s : State) (q : Byte) (v : Slot) : (s.setSlot q v).pendReads = s.pendReads := rfl
@[simp] theorem State.setSlot_pendResp (s : State) (q : Byte) (v : Slot) : (s.setSlot q v).pendResp = s.pendResp := rfl
@[simp] theorem State.setSlot_rtFrame (s : State) (q : Byte) (v : Slot) : (s.setSlot q v).rtFrame = s.rtFrame := rfl
@[simp] theorem State.setSlot_rtPending (s : State) (q : Byte) (v : Slot) : (s.setSlot q v).rtPending = s.rtPending := rfl
@[simp] theorem State.setSlot_rxState (s : State) (q : Byte) (v : Slot) : (s.setSlot q v).rxState = s.rxState := rfl
@[simp] theorem State.setSlot_rxBuf (s : State) (q : Byte) (v : Slot) : (s.setSlot q v).rxBuf = s.rxBuf := rfl
@[simp] theorem State.setSlot_rxNeed (s : State) (q : Byte) (v : Slot) : (s.setSlot q v).rxNeed = s.rxNeed := rfl
@[simp] theorem State.setSlot_crcErrors (s : State) (q : Byte) (v : Slot) : (s.setSlot q v).crcErrors = s.crcErrors := rfl
@[simp] theorem State.setSlot_retxCount (s : State) (q : Byte) (v : Slot) : (s.setSlot q v).retxCount = s.retxCount := rfl
@[simp] theorem State.setSlot_fatal (s : State) (q : Byte) (v : Slot) : (s.setSlot q v).fatal = s.fatal := rfl
@[simp] theorem State.setSlot_fatalCause (s : State) (q : Byte) (v : Slot) : (s.setSlot q v).fatalCause = s.fatalCause := rfl
@[simp] theorem State.setSlot_shadow (s : State) (q : Byte) (v : Slot) : (s.setSlot q v).shadow = s.shadow := rfl
@[simp] theorem State.setSlot_params (s : State) (q : Byte) (v : Slot) : (s.setSlot q v).params = s.params := rfl
@[simp] theorem State.setSlot_inputs (s : State) (q : Byte) (v : Slot) : (s.setSlot q v).inputs = s.inputs := rfl
@[simp] theorem State.setSlot_history (s : State) (q : Byte) (v : Slot) : (s.setSlot q v).history = s.history := rfl
theorem State.setSlot_store (s : State) (q : Byte) (v : Slot) :
    (s.setSlot q v).store = s.store.set (slotIndex q) v := rfl
@[simp] theorem State.log_slot (s : State) (o : Output) (q : Byte) : (s.log o).slot q = s.slot q := rfl
@[simp] theorem freeSlots_sn (d : Nat) (q : Byte) (s : State) : (freeSlots d q s).sn = s.sn := by
  induction d generalizing q s with
  | zero => rfl
  | succ d ih => simp [freeSlots, ih]
@[simp] theorem freeSlots_sb (d : Nat) (q : Byte) (s : State) : (freeSlots d q s).sb = s.sb := by
  induction d generalizing q s with
  | zero => rfl
  | succ d ih => simp [freeSlots, ih]
@[simp] theorem freeSlots_sm (d : Nat) (q : Byte) (s : State) : (freeSlots d q s).sm = s.sm := by
  induction d generalizing q s with
  | zero => rfl
  | succ d ih => simp [freeSlots, ih]
@[simp] theorem freeSlots_rn (d : Nat) (q : Byte) (s : State) : (freeSlots d q s).rn = s.rn := by
  induction d generalizing q s with
  | zero => rfl
  | succ d ih => simp [freeSlots, ih]
@[simp] theorem freeSlots_pendBytes (d : Nat) (q : Byte) (s : State) : (freeSlots d q s).pendBytes = s.pendBytes := by
  induction d generalizing q s with
  | zero => rfl
  | succ d ih => simp [freeSlots, ih]
@[simp] theorem freeSlots_pendReads (d : Nat) (q : Byte) (s : State) : (freeSlots d q s).pendReads = s.pendReads := by
  induction d generalizing q s with
  | zero => rfl
  | succ d ih => simp [freeSlots, ih]
@[simp] theorem freeSlots_pendResp (d : Nat) (q : Byte) (s : State) : (freeSlots d q s).pendResp = s.pendResp := by
  induction d generalizing q s with
  | zero => rfl
  | succ d ih => simp [freeSlots, ih]
@[simp] theorem freeSlots_rtFrame (d : Nat) (q : Byte) (s : State) : (freeSlots d q s).rtFrame = s.rtFrame := by
  induction d generalizing q s with
  | zero => rfl
  | succ d ih => simp [freeSlots, ih]
@[simp] theorem freeSlots_rtPending (d : Nat) (q : Byte) (s : State) : (freeSlots d q s).rtPending = s.rtPending := by
  induction d generalizing q s with
  | zero => rfl
  | succ d ih => simp [freeSlots, ih]
@[simp] theorem freeSlots_rxState (d : Nat) (q : Byte) (s : State) : (freeSlots d q s).rxState = s.rxState := by
  induction d generalizing q s with
  | zero => rfl
  | succ d ih => simp [freeSlots, ih]
@[simp] theorem freeSlots_rxBuf (d : Nat) (q : Byte) (s : State) : (freeSlots d q s).rxBuf = s.rxBuf := by
  induction d generalizing q s with
  | zero => rfl
  | succ d ih => simp [freeSlots, ih]
@[simp] theorem freeSlots_rxNeed (d : Nat) (q : Byte) (s : State) : (freeSlots d q s).rxNeed = s.rxNeed := by
  induction d generalizing q s with
  | zero => rfl
  | succ d ih => simp [freeSlots, ih]
@[simp] theorem freeSlots_crcErrors (d : Nat) (q : Byte) (s : State) : (freeSlots d q s).crcErrors = s.crcErrors := by
  induction d generalizing q s with
  | zero => rfl
  | succ d ih => simp [freeSlots, ih]
@[simp] theorem freeSlots_retxCount (d : Nat) (q : Byte) (s : State) : (freeSlots d q s).retxCount = s.retxCount := by
  induction d generalizing q s with
  | zero => rfl
  | succ d ih => simp [freeSlots, ih]
@[simp] theorem freeSlots_fatal (d : Nat) (q : Byte) (s : State) : (freeSlots d q s).fatal = s.fatal := by
  induction d generalizing q s with
  | zero => rfl
  | succ d ih => simp [freeSlots, ih]
@[simp] theorem freeSlots_fatalCause (d : Nat) (q : Byte) (s : State) : (freeSlots d q s).fatalCause = s.fatalCause := by
  induction d generalizing q s with
  | zero => rfl
  | succ d ih => simp [freeSlots, ih]
@[simp] theorem freeSlots_shadow (d : Nat) (q : Byte) (s : State) : (freeSlots d q s).shadow = s.shadow := by
  induction d generalizing q s with
  | zero => rfl
  | succ d ih => simp [freeSlots, ih]
@[simp] theorem freeSlots_params (d : Nat) (q : Byte) (s : State) : (freeSlots d q s).params = s.params := by
  induction d generalizing q s with
  | zero => rfl
  | succ d ih => simp [freeSlots, ih]
@[simp] theorem freeSlots_inputs (d : Nat) (q : Byte) (s : State) : (freeSlots d q s).inputs = s.inputs := by
  induction d generalizing q s with
  | zero => rfl
  | succ d ih => simp [freeSlots, ih]
@[simp] theorem freeSlots_history (d : Nat) (q : Byte) (s : State) : (freeSlots d q s).history = s.history := by
  induction d generalizing q s with
  | zero => rfl
  | succ d ih => simp [freeSlots, ih]

/-! ### The pending frame, the deframer and the resets -/

@[simp] theorem State.clearPending_sn (s : State) : (s.clearPending).sn = s.sn := rfl
@[simp] theorem State.clearPending_sb (s : State) : (s.clearPending).sb = s.sb := rfl
@[simp] theorem State.clearPending_sm (s : State) : (s.clearPending).sm = s.sm := rfl
@[simp] theorem State.clearPending_rn (s : State) : (s.clearPending).rn = s.rn := rfl
@[simp] theorem State.clearPending_store (s : State) : (s.clearPending).store = s.store := rfl
@[simp] theorem State.clearPending_rtFrame (s : State) : (s.clearPending).rtFrame = s.rtFrame := rfl
@[simp] theorem State.clearPending_rtPending (s : State) : (s.clearPending).rtPending = s.rtPending := rfl
@[simp] theorem State.clearPending_rxState (s : State) : (s.clearPending).rxState = s.rxState := rfl
@[simp] theorem State.clearPending_rxBuf (s : State) : (s.clearPending).rxBuf = s.rxBuf := rfl
@[simp] theorem State.clearPending_rxNeed (s : State) : (s.clearPending).rxNeed = s.rxNeed := rfl
@[simp] theorem State.clearPending_crcErrors (s : State) : (s.clearPending).crcErrors = s.crcErrors := rfl
@[simp] theorem State.clearPending_retxCount (s : State) : (s.clearPending).retxCount = s.retxCount := rfl
@[simp] theorem State.clearPending_fatal (s : State) : (s.clearPending).fatal = s.fatal := rfl
@[simp] theorem State.clearPending_fatalCause (s : State) : (s.clearPending).fatalCause = s.fatalCause := rfl
@[simp] theorem State.clearPending_shadow (s : State) : (s.clearPending).shadow = s.shadow := rfl
@[simp] theorem State.clearPending_params (s : State) : (s.clearPending).params = s.params := rfl
@[simp] theorem State.clearPending_inputs (s : State) : (s.clearPending).inputs = s.inputs := rfl
@[simp] theorem State.clearPending_history (s : State) : (s.clearPending).history = s.history := rfl
@[simp] theorem State.clearPending_pendBytes (s : State) : s.clearPending.pendBytes = [] := rfl
@[simp] theorem State.clearPending_pendReads (s : State) : s.clearPending.pendReads = [] := rfl
@[simp] theorem State.clearPending_pendResp (s : State) : s.clearPending.pendResp = 0 := rfl
@[simp] theorem State.rxIdle_sn (s : State) : (s.rxIdle).sn = s.sn := rfl
@[simp] theorem State.rxIdle_sb (s : State) : (s.rxIdle).sb = s.sb := rfl
@[simp] theorem State.rxIdle_sm (s : State) : (s.rxIdle).sm = s.sm := rfl
@[simp] theorem State.rxIdle_rn (s : State) : (s.rxIdle).rn = s.rn := rfl
@[simp] theorem State.rxIdle_store (s : State) : (s.rxIdle).store = s.store := rfl
@[simp] theorem State.rxIdle_pendBytes (s : State) : (s.rxIdle).pendBytes = s.pendBytes := rfl
@[simp] theorem State.rxIdle_pendReads (s : State) : (s.rxIdle).pendReads = s.pendReads := rfl
@[simp] theorem State.rxIdle_pendResp (s : State) : (s.rxIdle).pendResp = s.pendResp := rfl
@[simp] theorem State.rxIdle_rtFrame (s : State) : (s.rxIdle).rtFrame = s.rtFrame := rfl
@[simp] theorem State.rxIdle_rtPending (s : State) : (s.rxIdle).rtPending = s.rtPending := rfl
@[simp] theorem State.rxIdle_crcErrors (s : State) : (s.rxIdle).crcErrors = s.crcErrors := rfl
@[simp] theorem State.rxIdle_retxCount (s : State) : (s.rxIdle).retxCount = s.retxCount := rfl
@[simp] theorem State.rxIdle_fatal (s : State) : (s.rxIdle).fatal = s.fatal := rfl
@[simp] theorem State.rxIdle_fatalCause (s : State) : (s.rxIdle).fatalCause = s.fatalCause := rfl
@[simp] theorem State.rxIdle_shadow (s : State) : (s.rxIdle).shadow = s.shadow := rfl
@[simp] theorem State.rxIdle_params (s : State) : (s.rxIdle).params = s.params := rfl
@[simp] theorem State.rxIdle_inputs (s : State) : (s.rxIdle).inputs = s.inputs := rfl
@[simp] theorem State.rxIdle_history (s : State) : (s.rxIdle).history = s.history := rfl
@[simp] theorem State.rxIdle_rxState (s : State) : s.rxIdle.rxState = .sync := rfl
@[simp] theorem State.rxIdle_rxBuf (s : State) : s.rxIdle.rxBuf = [] := rfl
@[simp] theorem State.rxIdle_rxNeed (s : State) : s.rxIdle.rxNeed = 0 := rfl
@[simp] theorem appendRecord_sn (r : Request) (s : State) : (appendRecord r s).sn = s.sn := rfl
@[simp] theorem appendRecord_sb (r : Request) (s : State) : (appendRecord r s).sb = s.sb := rfl
@[simp] theorem appendRecord_sm (r : Request) (s : State) : (appendRecord r s).sm = s.sm := rfl
@[simp] theorem appendRecord_rn (r : Request) (s : State) : (appendRecord r s).rn = s.rn := rfl
@[simp] theorem appendRecord_store (r : Request) (s : State) : (appendRecord r s).store = s.store := rfl
@[simp] theorem appendRecord_rtFrame (r : Request) (s : State) : (appendRecord r s).rtFrame = s.rtFrame := rfl
@[simp] theorem appendRecord_rtPending (r : Request) (s : State) : (appendRecord r s).rtPending = s.rtPending := rfl
@[simp] theorem appendRecord_rxState (r : Request) (s : State) : (appendRecord r s).rxState = s.rxState := rfl
@[simp] theorem appendRecord_rxBuf (r : Request) (s : State) : (appendRecord r s).rxBuf = s.rxBuf := rfl
@[simp] theorem appendRecord_rxNeed (r : Request) (s : State) : (appendRecord r s).rxNeed = s.rxNeed := rfl
@[simp] theorem appendRecord_crcErrors (r : Request) (s : State) : (appendRecord r s).crcErrors = s.crcErrors := rfl
@[simp] theorem appendRecord_retxCount (r : Request) (s : State) : (appendRecord r s).retxCount = s.retxCount := rfl
@[simp] theorem appendRecord_fatal (r : Request) (s : State) : (appendRecord r s).fatal = s.fatal := rfl
@[simp] theorem appendRecord_fatalCause (r : Request) (s : State) : (appendRecord r s).fatalCause = s.fatalCause := rfl
@[simp] theorem appendRecord_shadow (r : Request) (s : State) : (appendRecord r s).shadow = s.shadow := rfl
@[simp] theorem appendRecord_params (r : Request) (s : State) : (appendRecord r s).params = s.params := rfl
@[simp] theorem appendRecord_inputs (r : Request) (s : State) : (appendRecord r s).inputs = s.inputs := rfl
@[simp] theorem appendRecord_history (r : Request) (s : State) : (appendRecord r s).history = s.history := rfl
@[simp] theorem appendRecord_pendBytes (r : Request) (s : State) : (appendRecord r s).pendBytes = s.pendBytes ++ recordBytes r := rfl
@[simp] theorem appendRecord_pendReads (r : Request) (s : State) : (appendRecord r s).pendReads = s.pendReads ++ readEntry r := rfl
@[simp] theorem appendRecord_pendResp (r : Request) (s : State) : (appendRecord r s).pendResp = s.pendResp + respLen r := rfl
@[simp] theorem channelReset_rtFrame (s : State) : (channelReset s).rtFrame = s.rtFrame := rfl
@[simp] theorem channelReset_crcErrors (s : State) : (channelReset s).crcErrors = s.crcErrors := rfl
@[simp] theorem channelReset_shadow (s : State) : (channelReset s).shadow = s.shadow := rfl
@[simp] theorem channelReset_params (s : State) : (channelReset s).params = s.params := rfl
@[simp] theorem channelReset_inputs (s : State) : (channelReset s).inputs = s.inputs := rfl
@[simp] theorem channelReset_history (s : State) : (channelReset s).history = s.history := rfl
@[simp] theorem powerOnReset_rtFrame (s : State) : (powerOnReset s).rtFrame = s.rtFrame := rfl
@[simp] theorem powerOnReset_params (s : State) : (powerOnReset s).params = s.params := rfl
@[simp] theorem powerOnReset_inputs (s : State) : (powerOnReset s).inputs = s.inputs := rfl
@[simp] theorem powerOnReset_history (s : State) : (powerOnReset s).history = s.history := rfl

end Sys2Proof.Machine
end

