-- ==== Sys2Proof/Laws/Arq.lean ====
section
/-!
SUPPORT. The sequencer's shared operations, each said once: sequence arithmetic, the frame store, SUBMIT,
RECOVER and ON_ACK.
-/

namespace Sys2Proof.Machine

/-! ### Sequence arithmetic -/

theorem dist_lt (a b : Byte) : dist a b < 256 := (b - a).isLt

@[simp] theorem dist_self (a : Byte) : dist a a = 0 := by simp [dist]

theorem dist_eq (a b : Byte) : dist a b = (b.toNat + 256 - a.toNat) % 256 := by
  have := a.isLt
  simp only [dist, BitVec.toNat_sub]
  omega

theorem dist_inj {a x y : Byte} (h : dist a x = dist a y) : x = y := by
  apply BitVec.eq_of_toNat_eq
  have := a.isLt; have := x.isLt; have := y.isLt
  rw [dist_eq, dist_eq] at h
  omega

theorem dist_add (a : Byte) (k : Nat) (hk : k < 256) : dist a (a + BitVec.ofNat 8 k) = k := by
  have := a.isLt
  rw [dist_eq, BitVec.toNat_add, BitVec.toNat_ofNat]
  omega

/-- A number is reached from `a` by going as far as it is ahead. -/
theorem add_dist (a b : Byte) : a + BitVec.ofNat 8 (dist a b) = b :=
  dist_inj (a := a) (dist_add a _ (dist_lt a b))

theorem dist_shift {a r q : Byte} (h : dist a r ≤ dist a q) : dist r q = dist a q - dist a r := by
  have := a.isLt; have := r.isLt; have := q.isLt
  rw [dist_eq, dist_eq] at h
  rw [dist_eq, dist_eq, dist_eq]
  omega

theorem outstanding_iff (s : State) (q : Byte) :
    outstanding s q = true ↔ dist s.sb q < window s := by simp [outstanding]

/-! ### The frame store -/

theorem State.slot_setSlot (s : State) (q x : Byte) (v : Slot) :
    (s.setSlot q v).slot x = if slotIndex x = slotIndex q then v else s.slot x := by
  simp only [State.slot, State.setSlot_store]
  by_cases h : slotIndex x = slotIndex q
  · rw [if_pos h]
    simp [h]
  · rw [if_neg h]
    have hne : ((slotIndex q : Fin Config.storeSize) : Nat) ≠ slotIndex x := fun e => h (Fin.ext e.symm)
    simp [hne]

theorem State.store_setSlot (s : State) (q : Byte) (k : Fin Config.storeSize) (v : Slot) :
    (s.setSlot q v).store[k] = if k = slotIndex q then v else s.store[k] := by
  rw [State.setSlot_store]
  by_cases h : k = slotIndex q
  · rw [if_pos h]
    simp [h]
  · rw [if_neg h]
    have hne : ((slotIndex q : Fin Config.storeSize) : Nat) ≠ k := fun e => h (Fin.ext e.symm)
    simp [hne]

/-- The loop of an advancing acknowledgement frees exactly the slots of `q, …, q + (d - 1)`. -/
theorem freeSlots_store (d : Nat) (q : Byte) (s : State) (k : Fin Config.storeSize) :
    (freeSlots d q s).store[k]
      = if ∃ j < d, slotIndex (q + BitVec.ofNat 8 j) = k then { s.store[k] with occupied := false }
        else s.store[k] := by
  induction d generalizing q s with
  | zero => simp [freeSlots]
  | succ d ih =>
    rw [freeSlots, ih]
    have hshift : (∃ j < d + 1, slotIndex (q + BitVec.ofNat 8 j) = k)
        ↔ slotIndex q = k ∨ ∃ j < d, slotIndex (q + 1#8 + BitVec.ofNat 8 j) = k := by
      constructor
      · rintro ⟨j, hj, rfl⟩
        rcases j with - | j
        · left; simp
        · right
          refine ⟨j, by omega, ?_⟩
          congr 1
          rw [BitVec.add_assoc, ← BitVec.ofNat_add, Nat.add_comm 1 j]
      · rintro (rfl | ⟨j, hj, rfl⟩)
        · exact ⟨0, by omega, by simp⟩
        · refine ⟨j + 1, by omega, ?_⟩
          congr 1
          rw [BitVec.add_assoc, ← BitVec.ofNat_add, Nat.add_comm 1 j]
    simp only [State.freeSlot_eq, State.store_setSlot]
    by_cases h1 : slotIndex q = k
    · have h1' : k = slotIndex q := h1.symm
      rw [if_pos h1', if_pos (hshift.mpr (.inl h1))]
      subst h1
      split <;> rfl
    · rw [if_neg (Ne.symm h1)]
      by_cases h2 : ∃ j < d, slotIndex (q + 1#8 + BitVec.ofNat 8 j) = k
      · rw [if_pos h2, if_pos (hshift.mpr (.inr h2))]
      · rw [if_neg h2, if_neg fun h => (hshift.mp h).elim h1 h2]

/-- Freed slots keep everything but their validity flag. -/
theorem freeSlots_store_or (d : Nat) (q : Byte) (s : State) (k : Fin Config.storeSize) :
    (freeSlots d q s).store[k] = s.store[k]
      ∨ (freeSlots d q s).store[k] = { s.store[k] with occupied := false } := by
  rw [freeSlots_store]
  split
  · exact .inr rfl
  · exact .inl rfl

/-! ### SUBMIT -/

/-- SUBMIT answers WINDOW_FULL exactly when the window is full or the slot of Sm is busy (R162, R163). -/
theorem submit_eq_none {p : List Byte} {reads : List ReadRec} {s : State} :
    submit p reads s = none ↔ window s = 64 ∨ (s.slot s.sm).occupied = true := by
  unfold submit
  split
  · simp_all [Config.windowSize]
  · split <;> simp_all [Config.windowSize]

/-- Everything SUBMIT does when it answers (R161). -/
theorem submit_eq_some {p : List Byte} {reads : List ReadRec} {s : State} {q : Byte} {t : State}
    (h : submit p reads s = some (q, t)) :
    window s ≠ 64 ∧ (s.slot s.sm).occupied = false ∧ q = s.sm
      ∧ t = { s with
                store := s.store.set (slotIndex s.sm)
                  { occupied := true, seq := s.sm, frame := encodeFrame s.sm .cmd false p, reads := reads }
                sm := s.sm + 1#8, sn := s.sm + 1#8
                history := s.history ++ [.event (.tx (encodeFrame s.sm .cmd false p))] } := by
  unfold submit at h
  split at h
  · cases h
  · split at h
    · cases h
    · cases h
      exact ⟨‹_›, by simp_all, rfl, rfl⟩

theorem submit_of_free {p : List Byte} {reads : List ReadRec} {s : State} (hw : window s ≠ 64)
    (ho : (s.slot s.sm).occupied = false) :
    submit p reads s
      = some (s.sm, { s with
                store := s.store.set (slotIndex s.sm)
                  { occupied := true, seq := s.sm, frame := encodeFrame s.sm .cmd false p, reads := reads }
                sm := s.sm + 1#8, sn := s.sm + 1#8
                history := s.history ++ [.event (.tx (encodeFrame s.sm .cmd false p))] }) := by
  rw [submit, if_neg (by simpa [Config.windowSize] using hw), if_neg (by simp [ho])]
  rfl

/-! ### RECOVER -/

/-- What a whole round of retransmission leaves, and when it can (R168). -/
theorem retransmit_eq (w : Nat) (q : Byte) (s : State)
    (h : ∀ k < w, (s.slot (q + BitVec.ofNat 8 k)).occupied = true) :
    retransmit w q s = .ok (s.answers ((List.range w).map fun k =>
      .event (.tx (s.slot (q + BitVec.ofNat 8 k)).frame))) := by
  induction w generalizing q s with
  | zero => simp [retransmit, State.answers]
  | succ w ih =>
    have h0 := h 0 (by omega)
    simp only [BitVec.add_zero] at h0
    have hs : ∀ k, q + 1#8 + BitVec.ofNat 8 k = q + BitVec.ofNat 8 (k + 1) := fun k => by
      rw [BitVec.add_assoc, ← BitVec.ofNat_add, Nat.add_comm 1 k]
    rw [retransmit, if_pos h0, ih]
    · simp only [State.answers, State.emit_eq, State.log_slot, State.log_history, hs,
        List.range_succ_eq_map, List.map_cons, List.map_map, List.append_assoc]
      simp [State.log, Function.comp_def]
    · intro k hk
      rw [hs]
      exact h (k + 1) (by omega)

/-- A retransmission that does not stop found every slot occupied. -/
theorem occupied_of_retransmit {w : Nat} {q : Byte} {s t : State} (h : retransmit w q s = .ok t) :
    ∀ k < w, (s.slot (q + BitVec.ofNat 8 k)).occupied = true := by
  induction w generalizing q s with
  | zero => intro k hk; omega
  | succ w ih =>
    rw [retransmit] at h
    split at h
    · intro k hk
      rcases k with - | k
      · simpa using ‹_›
      · have := ih h k (by omega)
        rw [BitVec.add_assoc, ← BitVec.ofNat_add, Nat.add_comm 1 k] at this
        simpa using this
    · cases h

theorem raiseFatal_run {c : FatalCause} {s : State} (h : s.fatal = false) :
    raiseFatal c s = { s with fatal := true, fatalCause := c
                              history := s.history
                                ++ [.event (.fatal c s.sb s.sm s.rn s.crcErrors s.retxCount)] } := by
  simp [raiseFatal, h, State.log]

theorem raiseFatal_fatal {c : FatalCause} {s : State} (h : s.fatal = true) : raiseFatal c s = s := by
  simp [raiseFatal, h]

/-- RECOVER leaves what R168 says whenever the slots of the outstanding frames are occupied. -/
theorem recover_eq (t : Trigger) (s : State)
    (h : ∀ q, outstanding s q = true → (s.slot q).occupied = true) :
    recover t s = .ok (s.recovered (limitCause t)) := by
  unfold recover State.recovered
  by_cases hf : s.fatal = true
  · simp [hf]
  · by_cases hw : window s = 0
    · simp [hw]
    · have hf' : s.fatal = false := by simpa using hf
      have hn : ¬(s.fatal = true ∨ window s = 0) := by simp [hf', hw]
      rw [if_neg hf, if_neg hw, if_neg hn]
      by_cases hr : s.params.maxRetx.toNat ≤ s.retxCount
      · rw [if_pos hr, if_pos hr, raiseFatal_run hf']
      · rw [if_neg hr, if_neg hr, retransmit_eq]
        · rfl
        · intro k hk
          refine h _ ((outstanding_iff _ _).mpr ?_)
          rw [dist_add _ _ (Nat.lt_trans hk (dist_lt _ _))]
          exact hk

/-- Everything RECOVER can do when it does not stop. -/
theorem recover_ok {t : Trigger} {s s' : State} (h : recover t s = .ok s') :
    s' = s.recovered (limitCause t) := by
  unfold recover at h
  unfold State.recovered
  by_cases hf : s.fatal = true
  · rw [if_pos hf] at h; cases h; simp [hf]
  · by_cases hw : window s = 0
    · rw [if_neg hf, if_pos hw] at h; cases h; simp [hw]
    · have hf' : s.fatal = false := by simpa using hf
      have hn : ¬(s.fatal = true ∨ window s = 0) := by simp [hf', hw]
      rw [if_neg hf, if_neg hw] at h
      rw [if_neg hn]
      by_cases hr : s.params.maxRetx.toNat ≤ s.retxCount
      · rw [if_pos hr, raiseFatal_run hf'] at h
        rw [if_pos hr]
        cases h
        rfl
      · rw [if_neg hr] at h
        rw [retransmit_eq _ _ _ (occupied_of_retransmit h)] at h
        rw [if_neg hr]
        cases h
        rfl

/-- RECOVER stops only at an outstanding frame whose slot is empty. -/
theorem recover_error {t : Trigger} {s : State} {e : Fault} (h : recover t s = .error e) :
    ∃ q, outstanding s q = true ∧ (s.slot q).occupied = false := by
  by_contra hc
  push Not at hc
  rw [recover_eq t s fun q hq => by simpa using hc q hq] at h
  cases h

/-! ### ON_ACK -/

/-- An acknowledgement beyond the window: `Rn`, then recovery (R167). -/
theorem onAck_outOfOrder {r : Byte} {s : State} (h : window s < dist s.sb r) :
    onAck r s = recover .outOfOrder { s with rn := r } := by
  rw [onAck, if_pos h]

/-- A duplicate acknowledgement: `Rn` only (R166). -/
theorem onAck_duplicate {r : Byte} {s : State} (h : r = s.sb) : onAck r s = .ok { s with rn := r } := by
  subst h
  simp [onAck]

/-- An advancing acknowledgement (R165). -/
theorem onAck_advance {r : Byte} {s : State} (h1 : 1 ≤ dist s.sb r) (h2 : dist s.sb r ≤ window s) :
    onAck r s = .ok { freeSlots (dist s.sb r) s.sb { s with rn := r } with sb := r, retxCount := 0 } := by
  rw [onAck, if_neg (by omega), if_neg (by omega)]

/-- Everything ON_ACK can do when it does not stop. -/
theorem onAck_ok {r : Byte} {s t : State} (h : onAck r s = .ok t) :
    (window s < dist s.sb r ∧ t = State.recovered { s with rn := r } .maxRetransmitExceeded)
    ∨ (r = s.sb ∧ t = { s with rn := r })
    ∨ (1 ≤ dist s.sb r ∧ dist s.sb r ≤ window s
        ∧ t = { freeSlots (dist s.sb r) s.sb { s with rn := r } with sb := r, retxCount := 0 }) := by
  unfold onAck at h
  split at h
  · exact .inl ⟨‹_›, recover_ok h⟩
  · split at h
    · next h0 =>
      cases h
      refine .inr (.inl ⟨?_, rfl⟩)
      have := add_dist s.sb r
      rw [h0] at this
      simpa using this.symm
    · cases h
      exact .inr (.inr ⟨by omega, by omega, rfl⟩)

end Sys2Proof.Machine
end

