-- ==== Sys2Proof/Laws/Batcher.lean ====
section
/-!
SUPPORT. The batcher's shared operations, each said once: CHECK, record sizes, QCMD, FLUSH, RTSUB, TXRT.
-/

namespace Sys2Proof.Machine

theorem State.log_eq (s : State) (o : Output) : s.log o = s.answers [o] := rfl

/-- CHECK lets through exactly the requests R131 lets through. -/
theorem checkRequest_eq_ok {r : Request} (h : r.len ≠ 0) : checkRequest r = .ok ↔ Accepted r := by
  unfold checkRequest check Accepted Config.shadowSize Config.maxDSize Config.recHdr
  rcases hw : r.isWrite <;> simp only [Bool.false_eq_true, if_false, if_true, false_and, true_and]
  all_goals
    split
    · simp; omega
    · split
      · simp; omega
      · first
          | (split
             · simp; omega
             · simp; omega)
          | (simp; omega)

theorem check_ne_ok {r : Request} :
    checkRequest r = .ok ∨ checkRequest r = .addressOutOfRange ∨ checkRequest r = .payloadTooLarge := by
  unfold checkRequest check
  repeat' split
  all_goals simp

theorem recordBytes_length (r : Request) :
    (recordBytes r).length = 3 + if r.isWrite then r.len else 0 := by
  cases r <;> simp [recordBytes, recordHeader, Request.data, Request.isWrite, Request.len]
  omega

theorem recordBytes_ne_nil (r : Request) : recordBytes r ≠ [] := by
  intro h
  have := recordBytes_length r
  rw [h] at this
  simp at this
  omega

/-- A command record's header bytes as R75 numbers them. -/
theorem recordHeader_eq (w : Bool) (m : Mode) (a : RegAddr) (n : Nat) :
    recordHeader w m a n = recordNumbers w (decide (m = .ai)) a.toNat n [] := by
  have ha := a.isLt
  have h6 : ((a.extractLsb' 8 6).setWidth 8 : Byte) = BitVec.ofNat 8 (a.toNat / 256) := by
    apply BitVec.eq_of_toNat_eq
    simp only [BitVec.toNat_setWidth, BitVec.extractLsb'_toNat, Nat.shiftRight_eq_div_pow, BitVec.toNat_ofNat]
    omega
  have h0 : ∀ k : Fin 64, ∀ w : Bool, ∀ m : Mode,
      writeBit w ||| modeBits m ||| BitVec.ofNat 8 k.val
        = BitVec.ofNat 8 (128 * w.toNat + 64 * (decide (m = .ai)).toNat + k.val) := by
    intro k w m
    cases m <;> cases w <;> revert k <;> decide +kernel
  have h8 : (a.extractLsb' 0 8 : Byte) = BitVec.ofNat 8 (a.toNat % 256) := by
    apply BitVec.eq_of_toNat_eq
    simp only [BitVec.extractLsb'_toNat, Nat.shiftRight_eq_div_pow, BitVec.toNat_ofNat]
    omega
  have hk := h0 ⟨a.toNat / 256, by omega⟩ w m
  rw [recordHeader, h6, h8, hk]
  simp [recordNumbers]

/-- A request inside the register space is encoded as R75 numbers its bytes. -/
theorem recordBytes_eq {r : Request} (h : r.addr.toNat < 16384) : recordBytes r = recordOf r := by
  have ha : (r.addr.setWidth 14 : RegAddr).toNat = r.addr.toNat := by
    rw [BitVec.toNat_setWidth]; omega
  rw [recordBytes, recordHeader_eq, ha]
  simp [recordOf, recordNumbers]

/-- The READ list entry, its address as a number. -/
theorem readEntry_eq (r : Request) :
    readEntry r = if r.isWrite then [] else [{ mode := r.mode, addr := BitVec.ofNat 14 r.addr.toNat, n := r.len }] := by
  have h : (r.addr.setWidth 14 : RegAddr) = BitVec.ofNat 14 r.addr.toNat := by
    apply BitVec.eq_of_toNat_eq; simp
  rw [readEntry, h]

/-- FITS counts as R133 does. -/
theorem fits_iff (r : Request) (s : State) : fits r s = true ↔ FitsPending r s := by
  rw [fits, decide_eq_true_eq, recordBytes_length]
  rfl

/-- The pending frame after an accepted record (R132). -/
theorem appendRecord_eq {r : Request} (s : State) (h : r.addr.toNat < 16384) : appendRecord r s = s.queued r := by
  rw [appendRecord, recordBytes_eq h, readEntry_eq]
  rfl

/-- Everything QCMD can do, in the order of R253. -/
theorem queueCommand_cases (r : Request) (s : State) :
    (s.fatal = true ∧ queueCommand r s = s.answers [.result [0x04#8]])
    ∨ (s.fatal = false ∧ r.len = 0 ∧ queueCommand r s = s.answers [.result [0x00#8]])
    ∨ (s.fatal = false ∧ r.len ≠ 0 ∧ checkRequest r ≠ .ok
        ∧ queueCommand r s = s.answers [.result [codeByte (checkRequest r)]])
    ∨ (s.fatal = false ∧ Accepted r ∧ (s.pendBytes = [] ∨ fits r s = true)
        ∧ queueCommand r s = (appendRecord r s).answers [.result [0x00#8]])
    ∨ (s.fatal = false ∧ Accepted r ∧ s.pendBytes ≠ [] ∧ fits r s = false
        ∧ submit s.pendBytes s.pendReads s = none ∧ queueCommand r s = s.answers [.result [0x01#8]])
    ∨ (s.fatal = false ∧ Accepted r ∧ s.pendBytes ≠ [] ∧ fits r s = false
        ∧ ∃ q s', submit s.pendBytes s.pendReads s = some (q, s')
          ∧ queueCommand r s = (appendRecord r s'.clearPending).answers [.result [0x00#8]]) := by
  unfold queueCommand
  by_cases hf : s.fatal = true
  · rw [if_pos hf]; exact .inl ⟨hf, rfl⟩
  · have hf' : s.fatal = false := by simpa using hf
    rw [if_neg hf]
    refine .inr ?_
    by_cases hn : r.len = 0
    · rw [if_pos hn]; exact .inl ⟨hf', hn, rfl⟩
    · rw [if_neg hn]
      refine .inr ?_
      by_cases hc : checkRequest r = .ok
      · rw [if_neg (by simp [hc])]
        have ha := (checkRequest_eq_ok hn).mp hc
        refine .inr ?_
        by_cases hp : s.pendBytes = [] ∨ fits r s = true
        · rw [if_pos hp]; exact .inl ⟨hf', ha, hp, rfl⟩
        · rw [if_neg hp]
          have hp1 : s.pendBytes ≠ [] := fun h => hp (.inl h)
          have hp2 : fits r s = false := by
            rcases h : fits r s
            · rfl
            · exact absurd (.inr h) hp
          refine .inr ?_
          rcases hs : submit s.pendBytes s.pendReads s with - | ⟨q, s'⟩
          · exact .inl ⟨hf', ha, hp1, hp2, rfl, rfl⟩
          · exact .inr ⟨hf', ha, hp1, hp2, q, s', rfl, rfl⟩
      · rw [if_pos hc]; exact .inl ⟨hf', hn, hc, rfl⟩

/-- Everything FLUSH can do (R134). -/
theorem flushPending_cases (s : State) :
    (s.fatal = true ∧ flushPending s = s.answers [.result [0x04#8]])
    ∨ (s.fatal = false ∧ s.pendBytes = [] ∧ flushPending s = s.answers [.result [0x00#8]])
    ∨ (s.fatal = false ∧ s.pendBytes ≠ [] ∧ submit s.pendBytes s.pendReads s = none
        ∧ flushPending s = s.answers [.result [0x01#8]])
    ∨ (s.fatal = false ∧ s.pendBytes ≠ []
        ∧ ∃ q s', submit s.pendBytes s.pendReads s = some (q, s')
          ∧ flushPending s = s'.clearPending.answers [.result [0x00#8, q]]) := by
  unfold flushPending
  by_cases hf : s.fatal = true
  · rw [if_pos hf]; exact .inl ⟨hf, rfl⟩
  · have hf' : s.fatal = false := by simpa using hf
    rw [if_neg hf]
    refine .inr ?_
    by_cases hp : s.pendBytes = []
    · rw [if_pos hp]; exact .inl ⟨hf', hp, rfl⟩
    · rw [if_neg hp]
      refine .inr ?_
      rcases hs : submit s.pendBytes s.pendReads s with - | ⟨q, s'⟩
      · exact .inl ⟨hf', hp, rfl, rfl⟩
      · exact .inr ⟨hf', hp, q, s', rfl, rfl⟩

/-- Everything RTSUB can do (R191). -/
theorem submitRealtime_cases (rs : List Request) (s : State) :
    (s.fatal = true ∧ submitRealtime rs s = s.answers [.result [0x04#8]])
    ∨ (s.fatal = false ∧ ∃ c, rtPayload rs = .error c ∧ submitRealtime rs s = s.answers [.result [codeByte c]])
    ∨ (s.fatal = false ∧ ∃ p, rtPayload rs = .ok p ∧ 256 < p.length
        ∧ submitRealtime rs s = s.answers [.result [0x03#8]])
    ∨ (s.fatal = false ∧ ∃ p, rtPayload rs = .ok p ∧ p.length ≤ 256
        ∧ submitRealtime rs s
          = { s with rtFrame := encodeFrame s.params.rtSeq .cmd true p, rtPending := true
                     history := s.history ++ [.result [0x00#8]] }) := by
  unfold submitRealtime
  by_cases hf : s.fatal = true
  · rw [if_pos hf]; exact .inl ⟨hf, rfl⟩
  · have hf' : s.fatal = false := by simpa using hf
    rw [if_neg hf]
    refine .inr ?_
    rcases hp : rtPayload rs with c | p
    · exact .inl ⟨hf', c, rfl, rfl⟩
    · refine .inr ?_
      by_cases hl : Config.maxDSize < p.length
      · simp only [if_pos hl]; exact .inl ⟨hf', p, rfl, hl, rfl⟩
      · simp only [if_neg hl]; exact .inr ⟨hf', p, rfl, Nat.not_lt.mp hl, rfl⟩

/-- Everything TXRT can do (R192). -/
theorem transmitRealtime_cases (s : State) :
    ((s.fatal = true ∨ s.rtPending = false) ∧ transmitRealtime s = s)
    ∨ (s.fatal = false ∧ s.rtPending = true
        ∧ transmitRealtime s
          = { s with rtPending := false, history := s.history ++ [.event (.tx s.rtFrame)] }) := by
  unfold transmitRealtime
  by_cases h : s.fatal = true ∨ s.rtPending = false
  · rw [if_pos h]; exact .inl ⟨h, rfl⟩
  · rw [if_neg h]
    push Not at h
    exact .inr ⟨by simpa using h.1, by simpa using h.2, rfl⟩

end Sys2Proof.Machine
end

