-- ==== Sys2Proof/Laws/Memory.lean ====
section
/-!
SUPPORT. The register shadow: a write keeps the canonical form, a read after a write to the same address
gives the value written, and a write leaves every other address alone.
-/

namespace Sys2Proof.Machine

theorem Memory.read_eq_unlisted_of_lt {m : Memory} {a : Nat} (h : ∀ c ∈ m, a < c.1) :
    m.read a = unlistedByte := by
  induction m with
  | nil => rfl
  | cons c m ih =>
    have h1 := h c (by simp)
    rw [Memory.read, if_neg (by omega)]
    exact ih fun c hc => h c (by simp [hc])

theorem Memory.mem_consCell {a : Nat} {v : Byte} {m : Memory} {c : Host.Cell}
    (h : c ∈ Memory.consCell a v m) : (c = (a, v) ∧ v ≠ unlistedByte) ∨ c ∈ m := by
  unfold Memory.consCell at h
  split at h
  · exact .inr h
  · rcases List.mem_cons.mp h with h | h
    · exact .inl ⟨h, ‹_›⟩
    · exact .inr h

theorem Memory.mem_write {m : Memory} {a : Nat} {v : Byte} {c : Host.Cell}
    (h : c ∈ Memory.write m a v) : (c = (a, v) ∧ v ≠ unlistedByte) ∨ c ∈ m := by
  induction m with
  | nil => exact Memory.mem_consCell h
  | cons x m ih =>
    rw [Memory.write] at h
    split at h
    · exact Memory.mem_consCell h
    · split at h
      · rcases Memory.mem_consCell h with h | h
        · exact .inl h
        · exact .inr (by simp [h])
      · rcases List.mem_cons.mp h with h | h
        · exact .inr (by simp [h])
        · rcases ih h with h | h
          · exact .inl h
          · exact .inr (by simp [h])

theorem Memory.read_consCell {m : Memory} {a b : Nat} {v : Byte}
    (h : ∀ c ∈ m, a < c.1) :
    (Memory.consCell a v m).read b = if b = a then v else m.read b := by
  unfold Memory.consCell
  by_cases hv : v = unlistedByte
  · rw [if_pos hv]
    split
    · next hb => rw [hb, hv, Memory.read_eq_unlisted_of_lt h]
    · rfl
  · rw [if_neg hv, Memory.read]
    by_cases hb : b = a
    · rw [if_pos hb.symm, if_pos hb]
    · rw [if_neg (Ne.symm hb), if_neg hb]

/-- Read after write. -/
theorem Memory.read_write {m : Memory} (hm : m.Pairwise fun x y => x.1 < y.1) (a b : Nat) (v : Byte) :
    (m.write a v).read b = if b = a then v else m.read b := by
  induction m with
  | nil => exact Memory.read_consCell (by simp)
  | cons x m ih =>
    have ⟨hx, hm'⟩ := List.pairwise_cons.mp hm
    rw [Memory.write]
    split
    · next h =>
      exact Memory.read_consCell fun c hc => by
        rcases List.mem_cons.mp hc with rfl | hc
        · exact h
        · exact Nat.lt_trans h (hx c hc)
    · split
      · next _ h =>
        subst h
        rw [Memory.read_consCell hx]
        split
        · rfl
        · rw [Memory.read, if_neg (Ne.symm ‹_›)]
      · next h h' =>
        rw [Memory.read, Memory.read, ih hm']
        by_cases hb : b = a
        · subst hb; rw [if_neg (Ne.symm h'), if_pos rfl, if_pos rfl]
        · rw [if_neg hb, if_neg hb]

/-- A write keeps the canonical form. -/
theorem Memory.wf_write {m : Memory} {a : Nat} {v : Byte} (hm : Memory.wf m)
    (ha : a < Config.shadowSize) : Memory.wf (m.write a v) := by
  refine ⟨?_, fun c hc => ?_⟩
  · have hp := hm.1
    clear hm
    induction m with
    | nil =>
      rw [Memory.write, Memory.consCell]
      split <;> simp
    | cons x m ih =>
      have ⟨hx, hm'⟩ := List.pairwise_cons.mp hp
      rw [Memory.write]
      split
      · next h =>
        rw [Memory.consCell]
        split
        · exact hp
        · refine List.pairwise_cons.mpr ⟨fun c hc => ?_, hp⟩
          rcases List.mem_cons.mp hc with rfl | hc
          · exact h
          · exact Nat.lt_trans h (hx c hc)
      · split
        · next _ h =>
          subst h
          rw [Memory.consCell]
          split
          · exact hm'
          · exact List.pairwise_cons.mpr ⟨hx, hm'⟩
        · next h h' =>
          refine List.pairwise_cons.mpr ⟨fun c hc => ?_, ih hm'⟩
          rcases Memory.mem_write hc with ⟨rfl, -⟩ | hc
          · change x.1 < a
            omega
          · exact hx c hc
  · rcases Memory.mem_write hc with ⟨rfl, hv⟩ | hc
    · exact ⟨hv, ha⟩
    · exact hm.2 c hc

theorem State.reset_shadow_wf : Memory.wf State.reset.shadow := by decide

/-- Everything a shadow write can do. -/
theorem memWrite_ok {a : Nat} {v : Byte} {s t : State} (h : memWrite a v s = .ok t) :
    a < Config.shadowSize ∧ t = { s with shadow := s.shadow.write a v } := by
  unfold memWrite at h
  split at h
  · cases h; exact ⟨‹_›, rfl⟩
  · cases h

theorem memWrite_of_lt {a : Nat} {v : Byte} {s : State} (h : a < Config.shadowSize) :
    memWrite a v s = .ok { s with shadow := s.shadow.write a v } := by
  simp [memWrite, h]

@[simp] theorem memRead_length (s : State) (a n : Nat) : (memRead s a n).length = n := by
  simp [memRead]

theorem memRead_getElem? {s : State} {a n i : Nat} (h : i < n) :
    (memRead s a n)[i]? = some (s.shadow.read (a + i)) := by
  simp [memRead, h]

end Sys2Proof.Machine
end

