-- ==== Sys2Proof/Laws/Receive.lean ====
section
/-!
SUPPORT. The receive path's shared operations, each said once: SHADOW_FILL, ACK_IN, DISPATCH and the
deframer's byte step.
-/

namespace Sys2Proof.Machine

/-! ### SHADOW_FILL -/

/-- A record's fill writes the shadow and nothing else, and keeps its canonical form. -/
theorem fillRecord_ok {m : Mode} {a : RegAddr} {i : Nat} {bs : List Byte} {s t : State}
    (h : fillRecord m a i bs s = .ok t) :
    t = { s with shadow := t.shadow } ∧ (Memory.wf s.shadow → Memory.wf t.shadow) := by
  induction bs generalizing i s with
  | nil => cases h; exact ⟨rfl, id⟩
  | cons b bs ih =>
    rw [fillRecord] at h
    rcases hw : memWrite (effectiveAddr m a i) b s with e | s'
    · rw [hw] at h; cases h
    · rw [hw] at h
      obtain ⟨ha, rfl⟩ := memWrite_ok hw
      obtain ⟨h1, h2⟩ := ih h
      exact ⟨h1, fun hm => h2 (Memory.wf_write hm ha)⟩

/-- SHADOW_FILL writes the shadow and nothing else, and keeps its canonical form. -/
theorem shadowFill_ok {rs : List ReadRec} {p : List Byte} {s t : State} (h : shadowFill rs p s = .ok t) :
    t = { s with shadow := t.shadow } ∧ (Memory.wf s.shadow → Memory.wf t.shadow) := by
  induction rs generalizing p s with
  | nil => cases h; exact ⟨rfl, id⟩
  | cons r rs ih =>
    rw [shadowFill] at h
    rcases hw : fillRecord r.mode r.addr 0 (p.take r.n) s with e | s'
    · rw [hw] at h; cases h
    · rw [hw] at h
      obtain ⟨h1, h2⟩ := fillRecord_ok hw
      obtain ⟨h3, h4⟩ := ih h
      refine ⟨?_, h4 ∘ h2⟩
      rw [h3, h1]

theorem effectiveAddr_lt {m : Mode} {a : RegAddr} {i n : Nat} (hi : i < n) (h : a.toNat + n ≤ 16384) :
    effectiveAddr m a i < Config.shadowSize := by
  cases m <;> simp only [effectiveAddr, Config.shadowSize] <;> omega

/-- A record inside the register space is filled whole. -/
theorem fillRecord_complete {m : Mode} {a : RegAddr} {n i : Nat} {bs : List Byte} {s : State}
    (h : a.toNat + n ≤ 16384) (hn : i + bs.length ≤ n) : ∃ t, fillRecord m a i bs s = .ok t := by
  induction bs generalizing i s with
  | nil => exact ⟨s, rfl⟩
  | cons b bs ih =>
    simp only [List.length_cons] at hn
    rw [fillRecord, memWrite_of_lt (effectiveAddr_lt (by omega) h)]
    exact ih (by omega)

theorem shadowFill_complete {rs : List ReadRec} {p : List Byte} {s : State}
    (h : ∀ r ∈ rs, r.addr.toNat + r.n ≤ 16384) : ∃ t, shadowFill rs p s = .ok t := by
  induction rs generalizing p s with
  | nil => exact ⟨s, rfl⟩
  | cons r rs ih =>
    obtain ⟨t, ht⟩ := fillRecord_complete (m := r.mode) (i := 0) (bs := p.take r.n) (s := s)
      (h r (by simp)) (by simp)
    rw [shadowFill, ht]
    exact ih fun x hx => h x (by simp [hx])

/-! ### ACK_IN and DISPATCH -/

/-- ACK_IN is ON_ACK, after the shadow has taken the read data where there is some. -/
theorem ackIn_ok {r : Byte} {p : List Byte} {s t : State} (h : ackIn r p s = .ok t) :
    ∃ m, (Memory.wf s.shadow → Memory.wf m) ∧ onAck r { s with shadow := m } = .ok t
      ∧ (ackCarriesData r p s = false → m = s.shadow) := by
  unfold ackIn at h
  split at h
  · next hc =>
    rcases hf : shadowFill (s.slot (r - 1#8)).reads p s with e | s'
    · rw [hf] at h; cases h
    · rw [hf] at h
      obtain ⟨h1, h2⟩ := shadowFill_ok hf
      rw [h1] at h
      exact ⟨s'.shadow, h2, h, fun hn => by rw [hc] at hn; cases hn⟩
  · exact ⟨s.shadow, id, h, fun _ => rfl⟩

/-- Everything DISPATCH can do when it does not stop (R210). -/
theorem dispatch_ok {seq tag : Byte} {rt : Bool} {p : List Byte} {s t : State}
    (h : dispatch seq tag rt p s = .ok t) :
    (∃ e, (e = .rtResult p ∨ e = .mailbox p) ∧ t = s.answers [.event e])
    ∨ t = s ∨ (rt = false ∧ tag = tagByte .ack ∧ ackIn seq p s = .ok t) := by
  unfold dispatch at h
  split at h
  · cases h; exact .inl ⟨_, .inl rfl, rfl⟩
  · split at h
    · cases h; exact .inl ⟨_, .inr rfl, rfl⟩
    · split at h
      · exact .inr (.inr ⟨by simp_all, ‹_›, h⟩)
      · cases h; exact .inr (.inl rfl)

/-! ### The byte step -/

theorem receiveByte_fatal {b : Byte} {s : State} (h : s.fatal = true) : receiveByte b s = .ok s := by
  simp [receiveByte, h]

theorem receiveByte_sync {b : Byte} {s : State} (hf : s.fatal = false) (hs : s.rxState = .sync) :
    receiveByte b s = .ok (syncStep { s with rxBuf := s.rxBuf ++ [b] }) := by
  simp [receiveByte, hf, hs]

theorem receiveByte_pload {b : Byte} {s : State} (hf : s.fatal = false) (hs : s.rxState = .ploadCrc) :
    receiveByte b s = ploadStep { s with rxBuf := s.rxBuf ++ [b] } := by
  simp [receiveByte, hf, hs]

/-- SYNC_STEP writes the deframer and nothing else. -/
theorem syncStep_frame (s : State) :
    syncStep s = { s with rxState := (syncStep s).rxState, rxBuf := (syncStep s).rxBuf
                          rxNeed := (syncStep s).rxNeed } := by
  unfold syncStep
  split
  · split <;> rfl
  · rfl

/-- Everything RX_BYTE can do when it does not stop: nothing (FATAL), a move of the deframer alone, a
decoded frame's dispatch (R109), or a CRC mismatch (R110). -/
theorem receiveByte_ok {b : Byte} {s t : State} (h : receiveByte b s = .ok t) :
    (s.fatal = true ∧ t = s)
    ∨ (s.fatal = false ∧ t = { s with rxState := t.rxState, rxBuf := t.rxBuf, rxNeed := t.rxNeed })
    ∨ (s.fatal = false ∧ ∃ seq tag rt p, dispatch seq tag rt p s.rxIdle = .ok t)
    ∨ (s.fatal = false ∧ frameBad s.rxIdle = .ok t) := by
  by_cases hf : s.fatal = true
  · rw [receiveByte_fatal hf] at h; cases h; exact .inl ⟨hf, rfl⟩
  · have hf' : s.fatal = false := by simpa using hf
    refine .inr ?_
    rcases hs : s.rxState
    · rw [receiveByte_sync hf' hs] at h
      cases h
      exact .inl ⟨hf', syncStep_frame _⟩
    · rw [receiveByte_pload hf' hs, ploadStep] at h
      split at h
      · cases h; exact .inl ⟨hf', rfl⟩
      · split at h
        · exact .inr (.inl ⟨hf', _, _, _, _, h⟩)
        · exact .inr (.inr ⟨hf', h⟩)

/-- A chunk is received piece by piece (R111). -/
theorem receiveBytes_append_ok {a b : List Byte} {s t : State} (h : receiveBytes a s = .ok t) :
    receiveBytes (a ++ b) s = receiveBytes b t := by
  induction a generalizing s with
  | nil => cases h; rfl
  | cons x a ih =>
    rw [receiveBytes] at h
    rw [List.cons_append, receiveBytes]
    rcases hx : receiveByte x s with e | s'
    · rw [hx] at h; cases h
    · rw [hx] at h
      exact ih h

/-- What every byte step keeps, every chunk keeps. -/
theorem receiveBytes_keeps {P : State → Prop}
    (hP : ∀ b s t, P s → receiveByte b s = .ok t → P t) {bs : List Byte} {s t : State} (hs : P s)
    (h : receiveBytes bs s = .ok t) : P t := by
  induction bs generalizing s with
  | nil => cases h; exact hs
  | cons b bs ih =>
    rw [receiveBytes] at h
    rcases hx : receiveByte b s with e | s'
    · rw [hx] at h; cases h
    · rw [hx] at h
      exact ih (hP _ _ _ hs hx) h

end Sys2Proof.Machine
end

