-- ==== Sys2Proof/Laws/Codec.lean ====
section
/-!
SUPPORT. The frame codec: sizes of an encoded frame, and what the deframer's field readers find in it.
-/

namespace Sys2Proof.Machine

@[simp] theorem be16_length (v : Half) : (be16 v).length = 2 := rfl
@[simp] theorem frameHeader_length (q : Byte) (t : Tag) (rt : Bool) (n : Nat) :
    (frameHeader q t rt n).length = 4 := rfl

@[simp] theorem frameBody_length (q : Byte) (t : Tag) (rt : Bool) (p : List Byte) :
    (frameBody q t rt p).length = p.length + 4 := by
  simp [frameBody]; omega

/-- R104. -/
@[simp] theorem encodeFrame_length (q : Byte) (t : Tag) (rt : Bool) (p : List Byte) :
    (encodeFrame q t rt p).length = p.length + 6 := by
  simp [encodeFrame]

/-- A field's two bytes give the field back. -/
theorem half_be16 (v : Half) : half (v.extractLsb' 8 8) (v.extractLsb' 0 8) = v := by
  apply BitVec.eq_of_toNat_eq
  have := v.isLt
  simp only [half, BitVec.toNat_append, BitVec.extractLsb'_toNat, Nat.shiftRight_eq_div_pow, Nat.pow_zero,
    Nat.div_one]
  rw [← Nat.shiftLeft_add_eq_or_of_lt (Nat.mod_lt _ (by decide)), Nat.shiftLeft_eq]
  omega

/-- Every length a frame may have reads back from header bytes 2 and 3 (R74). -/
theorem headerLen_encode (rt : Bool) {n : Nat} (h : n ≤ 256) :
    headerLen ((BitVec.ofNat 9 n).extractLsb' 0 8) (modeByte rt n) = n := by
  have key : ∀ k : Fin 257, ∀ rt : Bool,
      headerLen ((BitVec.ofNat 9 k.val).extractLsb' 0 8) (modeByte rt k.val) = k.val := by
    decide +kernel
  exact key ⟨n, by omega⟩ rt

theorem rtBit_encode (rt : Bool) (n : Nat) : rtBit (modeByte rt n) = rt := by
  cases rt <;> simp [rtBit, modeByte]

theorem reserved_encode (rt : Bool) (n : Nat) : (modeByte rt n).extractLsb' 1 6 = 0#6 := by
  apply BitVec.eq_of_getLsbD_eq
  intro i hi
  have : i < 6 := hi
  interval_cases i <;> cases rt <;> simp [modeByte]

@[simp] theorem tagOfByte_tagByte (t : Tag) : tagOfByte (tagByte t) = some t := by
  cases t <;> rfl

/-- Every encoded header is valid (R105). -/
theorem hdrValid_encode (t : Tag) (rt : Bool) {n : Nat} (h : n ≤ 256) :
    hdrValid (tagByte t) ((BitVec.ofNat 9 n).extractLsb' 0 8) (modeByte rt n) = true := by
  rw [hdrValid, headerLen_encode rt h, reserved_encode]
  simp [Config.maxDSize, h]

/-! ### The field readers on an encoded frame (R108, R109) -/

theorem encodeFrame_cons (q : Byte) (t : Tag) (rt : Bool) (p : List Byte) :
    encodeFrame q t rt p
      = q :: tagByte t :: (BitVec.ofNat 9 p.length).extractLsb' 0 8 :: modeByte rt p.length
        :: (p ++ be16 (crc (frameBody q t rt p))) := rfl

theorem candidateSeq_encode (q : Byte) (t : Tag) (rt : Bool) (p : List Byte) :
    candidateSeq (encodeFrame q t rt p) = q := rfl

theorem candidateTag_encode (q : Byte) (t : Tag) (rt : Bool) (p : List Byte) :
    candidateTag (encodeFrame q t rt p) = tagByte t := rfl

theorem candidateRt_encode (q : Byte) (t : Tag) (rt : Bool) (p : List Byte) :
    candidateRt (encodeFrame q t rt p) = rt := by
  rw [candidateRt, encodeFrame_cons]
  exact rtBit_encode rt p.length

theorem candidateBody_encode (q : Byte) (t : Tag) (rt : Bool) (p : List Byte) :
    candidateBody (encodeFrame q t rt p) = frameBody q t rt p := by
  rw [candidateBody, encodeFrame_length, encodeFrame, Config.crcWidth]
  exact List.take_left' (by simp)

theorem candidateCrc_encode (q : Byte) (t : Tag) (rt : Bool) (p : List Byte) :
    candidateCrc (encodeFrame q t rt p) = crc (frameBody q t rt p) := by
  have h1 : (encodeFrame q t rt p).getD (p.length + 6 - 2) 0#8
      = (crc (frameBody q t rt p)).extractLsb' 8 8 := by
    rw [encodeFrame, List.getD_append_right _ _ _ _ (by simp)]
    simp [be16]
  have h2 : (encodeFrame q t rt p).getD (p.length + 6 - 1) 0#8
      = (crc (frameBody q t rt p)).extractLsb' 0 8 := by
    rw [encodeFrame, List.getD_append_right _ _ _ _ (by simp)]
    simp [be16]
  rw [candidateCrc, encodeFrame_length, h1, h2, half_be16]

theorem candidateGood_encode (q : Byte) (t : Tag) (rt : Bool) (p : List Byte) :
    candidateGood (encodeFrame q t rt p) = true := by
  rw [candidateGood, candidateBody_encode, candidateCrc_encode]
  simp

theorem candidatePayload_encode (q : Byte) (t : Tag) (rt : Bool) (p : List Byte) :
    candidatePayload (encodeFrame q t rt p) = p := by
  rw [candidatePayload, candidateBody_encode]
  rfl

theorem frameOk_encode (q : Byte) (t : Tag) (rt : Bool) (p : List Byte) (s : State) :
    frameOk (encodeFrame q t rt p) s = dispatch q (tagByte t) rt p s := by
  rw [frameOk, candidateSeq_encode, candidateTag_encode, candidateRt_encode, candidatePayload_encode]

end Sys2Proof.Machine
end

