-- ==== Sys2Proof/Laws/Invariant.lean ====
section
/-!
SUPPORT. What each shared operation does to the invariant `Inv`: SUBMIT, the pending frame, RECOVER,
ON_ACK, ACK_IN, the byte step and the resets keep it, and under it no operation stops.
-/

namespace Sys2Proof.Machine

/-- The outputs and the inputs are no part of the invariant. -/
theorem Inv.observed {s : State} (h : Inv s) (is : List Input) (os : List Output) :
    Inv { s with inputs := is, history := os } :=
  ⟨h.window, h.sn, h.store, h.slots, h.pending, h.realtime, h.deframer, h.retx, h.cause, h.shadow, h.params⟩

theorem Inv.answers {s : State} (h : Inv s) (os : List Output) : Inv (s.answers os) :=
  h.observed s.inputs _

theorem readsOk_nil : ReadsOk [] := ⟨by simp, by simp [readTotal]⟩

theorem readTotal_append (a b : List ReadRec) : readTotal (a ++ b) = readTotal a + readTotal b := by
  simp [readTotal]

theorem dist_succ {a b : Byte} (h : dist a b < 255) : dist a (b + 1#8) = dist a b + 1 := by
  have := a.isLt; have := b.isLt
  rw [dist_eq] at h
  rw [dist_eq, dist_eq, BitVec.toNat_add]
  simp only [BitVec.toNat_ofNat]
  omega

theorem store_congr (v : Vector Slot Config.storeSize) {k k' : Fin Config.storeSize} (h : k = k') :
    v[k] = v[k'] := by
  subst h; rfl

theorem State.slot_congr (s : State) {q q' : Byte} (h : slotIndex q = slotIndex q') : s.slot q = s.slot q' :=
  store_congr s.store h

/-- Two outstanding numbers never share a slot (R173). -/
theorem eq_of_slotIndex {s : State} (h : StoreOk s) {q q' : Byte} (hq : outstanding s q = true)
    (hq' : outstanding s q' = true) (he : slotIndex q = slotIndex q') : q = q' := by
  have h1 := (h.1 q hq).2
  have h2 := (h.1 q' hq').2
  rw [← h1, ← h2, s.slot_congr he]

/-! ### SUBMIT and the pending frame -/

theorem submit_inv {p : List Byte} {reads : List ReadRec} {s t : State} {q : Byte} (hi : Inv s)
    (hp : p.length ≤ 256) (hr : ReadsOk reads) (h : submit p reads s = some (q, t)) : Inv t := by
  obtain ⟨hw, ho, -, rfl⟩ := submit_eq_some h
  have hw64 : window s ≤ 64 := hi.window
  have hwin : dist s.sb (s.sm + 1#8) = window s + 1 := dist_succ (by unfold window at hw64; omega)
  have hst : ∀ (k : Fin Config.storeSize) (v : Slot),
      (s.store.set (slotIndex s.sm) v)[k] = if k = slotIndex s.sm then v else s.store[k] :=
    fun k v => State.store_setSlot s s.sm k v
  refine ⟨?_, rfl, ⟨fun x hx => ?_, fun k hk => ?_⟩, fun k hk => ?_, hi.pending, hi.realtime, hi.deframer,
    hi.retx, hi.cause, hi.shadow, hi.params⟩
  · change dist s.sb (s.sm + 1#8) ≤ 64
    omega
  · have hx' : dist s.sb x < window s + 1 := by
      simpa [outstanding, window, hwin] using hx
    change ((s.store.set _ _)[slotIndex x]).occupied = true ∧ ((s.store.set _ _)[slotIndex x]).seq = x
    rw [hst]
    by_cases he : x = s.sm
    · subst he; simp
    · have hlt : dist s.sb x < window s := by
        have : dist s.sb x ≠ dist s.sb s.sm := fun e => he (dist_inj e)
        unfold window at hx' ⊢; omega
      have hx0 := hi.store.1 x ((outstanding_iff _ _).mpr hlt)
      have hne : slotIndex x ≠ slotIndex s.sm := fun e => by
        have := hx0.1
        rw [s.slot_congr e, ho] at this
        cases this
      rw [if_neg hne]
      exact hx0
  · change ((s.store.set _ _)[k]).occupied = true at hk
    change slotIndex ((s.store.set _ _)[k]).seq = k ∧ decide (dist s.sb ((s.store.set _ _)[k]).seq < dist s.sb (s.sm + 1#8)) = true
    rw [hst] at hk ⊢
    rw [hwin]
    split
    · next he => exact ⟨he.symm, by simp [window]⟩
    · next he =>
      rw [if_neg he] at hk
      obtain ⟨h1, h2⟩ := hi.store.2 k hk
      refine ⟨h1, ?_⟩
      have h3 := (outstanding_iff _ _).mp h2
      exact decide_eq_true (Nat.lt_succ_of_lt h3)
  · change ((s.store.set _ _)[k]).occupied = true at hk
    have hall : ∀ v : Slot, v = (if k = slotIndex s.sm then
          { occupied := true, seq := s.sm, frame := encodeFrame s.sm .cmd false p, reads := reads }
        else s.store[k]) → v.occupied = true →
        (∃ p, p.length ≤ 256 ∧ v.frame = encodeFrame v.seq .cmd false p) ∧ ReadsOk v.reads := by
      intro v hv ho
      split at hv
      · subst hv; exact ⟨⟨p, hp, rfl⟩, hr⟩
      · subst hv; exact hi.slots k ho
    exact hall _ (hst k _) hk

theorem clearPending_inv {s : State} (hi : Inv s) : Inv s.clearPending :=
  ⟨hi.window, hi.sn, hi.store, hi.slots,
    ⟨by simp, by simp, by simp [readTotal], readsOk_nil, fun _ => ⟨rfl, rfl⟩⟩,
    hi.realtime, hi.deframer, hi.retx, hi.cause, hi.shadow, hi.params⟩

theorem readEntry_total (r : Request) : readTotal (readEntry r) = respLen r := by
  cases r <;> simp [readEntry, respLen, Request.isWrite, readTotal]

theorem appendRecord_inv {r : Request} {s : State} (hi : Inv s) (ha : Accepted r)
    (hf : s.pendBytes = [] ∨ fits r s = true) : Inv (appendRecord r s) := by
  obtain ⟨h1, h2, h3, h4, h5⟩ := hi.pending
  have hb : s.pendBytes.length + (recordBytes r).length ≤ 256 ∧ s.pendResp + respLen r ≤ 256 := by
    rcases hf with hf | hf
    · rw [hf, (h5 hf).2, recordBytes_length]
      obtain ⟨-, -, ha⟩ := ha
      unfold respLen
      split at ha <;> simp_all
      all_goals omega
    · exact of_decide_eq_true hf
  refine ⟨hi.window, hi.sn, hi.store, hi.slots, ⟨?_, hb.2, ?_, ⟨fun x hx => ?_, ?_⟩, fun h => ?_⟩, hi.realtime, hi.deframer, hi.retx,
    hi.cause, hi.shadow, hi.params⟩
  · simpa using hb.1
  · simp [readTotal_append, readEntry_total, h3]
  · rcases List.mem_append.mp hx with hx | hx
    · exact h4.1 x hx
    · unfold readEntry at hx
      split at hx
      · simp at hx
      · next hw =>
        simp only [List.mem_singleton] at hx
        subst hx
        obtain ⟨a1, a2, a3⟩ := ha
        rw [if_neg hw] at a3
        refine ⟨a1, a3, ?_⟩
        simp only [BitVec.toNat_setWidth]
        omega
  · rw [appendRecord_pendReads, readTotal_append, readEntry_total, ← h3]
    exact hb.2
  · exact absurd (List.append_eq_nil_iff.mp h).2 (recordBytes_ne_nil r)

theorem queueCommand_inv {r : Request} {s : State} (hi : Inv s) : Inv (queueCommand r s) := by
  rcases queueCommand_cases r s with ⟨-, h⟩ | ⟨-, -, h⟩ | ⟨-, -, -, h⟩ | ⟨-, ha, hf, h⟩ | ⟨-, -, -, -, -, h⟩
    | ⟨-, ha, -, -, q, s', hs, h⟩ <;> rw [h]
  · exact hi.answers _
  · exact hi.answers _
  · exact hi.answers _
  · exact (appendRecord_inv hi ha hf).answers _
  · exact hi.answers _
  · exact (appendRecord_inv (clearPending_inv (submit_inv hi hi.pending.1 hi.pending.2.2.2.1 hs)) ha
      (.inl rfl)).answers _

theorem flushPending_inv {s : State} (hi : Inv s) : Inv (flushPending s) := by
  rcases flushPending_cases s with ⟨-, h⟩ | ⟨-, -, h⟩ | ⟨-, -, -, h⟩ | ⟨-, -, q, s', hs, h⟩ <;> rw [h]
  · exact hi.answers _
  · exact hi.answers _
  · exact hi.answers _
  · exact (clearPending_inv (submit_inv hi hi.pending.1 hi.pending.2.2.2.1 hs)).answers _

/-! ### The realtime slot -/

theorem submitRealtime_inv {rs : List Request} {s : State} (hi : Inv s) : Inv (submitRealtime rs s) := by
  rcases submitRealtime_cases rs s with ⟨-, h⟩ | ⟨-, c, -, h⟩ | ⟨-, p, -, -, h⟩ | ⟨-, p, -, hp, h⟩ <;> rw [h]
  · exact hi.answers _
  · exact hi.answers _
  · exact hi.answers _
  · exact ⟨hi.window, hi.sn, hi.store, hi.slots, hi.pending, fun _ => ⟨p, hp, rfl⟩, hi.deframer, hi.retx, hi.cause,
      hi.shadow, hi.params⟩

theorem transmitRealtime_inv {s : State} (hi : Inv s) : Inv (transmitRealtime s) := by
  rcases transmitRealtime_cases s with ⟨-, h⟩ | ⟨-, -, h⟩ <;> rw [h]
  · exact hi
  · exact ⟨hi.window, hi.sn, hi.store, hi.slots, hi.pending, (fun h => nomatch h), hi.deframer, hi.retx, hi.cause,
      hi.shadow, hi.params⟩

/-! ### RECOVER and ON_ACK -/

theorem raiseFatal_inv {c : FatalCause} {s : State} (hc : c ≠ .none) (hi : Inv s) : Inv (raiseFatal c s) := by
  unfold raiseFatal
  split
  · exact hi
  · exact ⟨hi.window, hi.sn, hi.store, hi.slots, hi.pending, hi.realtime, hi.deframer, hi.retx,
      ⟨fun h => absurd h hc, fun h => by cases h⟩, hi.shadow, hi.params⟩

theorem recovered_inv {c : FatalCause} {s : State} (hc : c ≠ .none) (hi : Inv s) : Inv (s.recovered c) := by
  unfold State.recovered
  split
  · exact hi
  · split
    · exact ⟨hi.window, hi.sn, hi.store, hi.slots, hi.pending, hi.realtime, hi.deframer, hi.retx,
        ⟨fun h => absurd h hc, fun h => by cases h⟩, hi.shadow, hi.params⟩
    · next h => exact ⟨hi.window, hi.sn, hi.store, hi.slots, hi.pending, hi.realtime, hi.deframer, by
        change s.retxCount + 1 ≤ s.params.maxRetx.toNat; omega, hi.cause, hi.shadow, hi.params⟩

theorem limitCause_ne (t : Trigger) : limitCause t ≠ .none := by cases t <;> simp [limitCause]

/-- Under the invariant RECOVER never stops, and it keeps the invariant. -/
theorem recover_inv (t : Trigger) {s : State} (hi : Inv s) : ∃ u, recover t s = .ok u ∧ Inv u :=
  ⟨_, recover_eq t s fun q hq => (hi.store.1 q hq).1, recovered_inv (limitCause_ne t) hi⟩

/-- The slots an advancing acknowledgement leaves (R165): those at distance `d` and more from Sb stay. -/
theorem freeSlots_outstanding {s : State} (hs : StoreOk s) {d : Nat} (hd : d ≤ window s) {q : Byte}
    (hq : outstanding s q = true) :
    (freeSlots d s.sb s).store[slotIndex q]
      = if dist s.sb q < d then { s.slot q with occupied := false } else s.slot q := by
  rw [freeSlots_store]
  have hw := dist_lt s.sb s.sm
  rw [show window s = dist s.sb s.sm from rfl] at hd
  by_cases h : dist s.sb q < d
  · rw [if_pos h, if_pos ⟨_, h, by rw [add_dist]⟩]
    rfl
  · rw [if_neg h, if_neg]
    · rfl
    · rintro ⟨j, hj, he⟩
      have hjd : dist s.sb (s.sb + BitVec.ofNat 8 j) = j := dist_add _ _ (by omega)
      have := eq_of_slotIndex hs ((outstanding_iff _ _).mpr (by rw [hjd]; unfold window; omega)) hq he
      rw [← this, hjd] at h
      exact h hj

theorem onAck_advance_inv {r : Byte} {s : State} (hi : Inv s) (h2 : dist s.sb r ≤ window s) :
    Inv { freeSlots (dist s.sb r) s.sb { s with rn := r } with sb := r, retxCount := 0 } := by
  have hw64 : window s ≤ 64 := hi.window
  have hwin : dist r s.sm = window s - dist s.sb r := dist_shift h2
  have hs0 : StoreOk { s with rn := r } := hi.store
  have hfree : ∀ q, outstanding s q = true →
      (freeSlots (dist s.sb r) s.sb { s with rn := r }).store[slotIndex q]
        = if dist s.sb q < dist s.sb r then { s.slot q with occupied := false } else s.slot q :=
    fun q hq => freeSlots_outstanding hs0 h2 hq
  have hor := fun k => freeSlots_store_or (dist s.sb r) s.sb { s with rn := r } k
  have hocc : ∀ k : Fin Config.storeSize,
      (freeSlots (dist s.sb r) s.sb { s with rn := r }).store[k].occupied = true →
        (freeSlots (dist s.sb r) s.sb { s with rn := r }).store[k] = s.store[k] ∧ s.store[k].occupied = true := by
    intro k hk
    rcases hor k with h | h
    · exact ⟨h, by rw [h] at hk; exact hk⟩
    · rw [h] at hk; cases hk
  refine ⟨?_, by simpa using hi.sn, ⟨fun q hq => ?_, fun k hk => ?_⟩, fun k hk => ?_, ?_, ?_, ?_, ?_, ?_, ?_, ?_⟩
  · change dist r (freeSlots _ _ _).sm ≤ 64
    simp only [freeSlots_sm]; omega
  · have hq' : dist r q < dist r s.sm := by simpa [outstanding, window] using hq
    have hle : dist s.sb q = dist s.sb r + dist r q := by
      have := s.sb.isLt; have := r.isLt; have := q.isLt; have := s.sm.isLt
      rw [hwin] at hq'
      unfold window at *
      simp only [dist_eq] at *
      omega
    have ho : outstanding s q = true := (outstanding_iff _ _).mpr (by omega)
    change ((freeSlots _ _ _).store[slotIndex q]).occupied = true ∧ ((freeSlots _ _ _).store[slotIndex q]).seq = q
    rw [hfree q ho, if_neg (by omega)]
    exact hi.store.1 q ho
  · obtain ⟨he, ho⟩ := hocc k hk
    change slotIndex ((freeSlots _ _ _).store[k]).seq = k ∧ decide (dist r ((freeSlots _ _ _).store[k]).seq < dist r (freeSlots _ _ _).sm) = true
    rw [he, freeSlots_sm]
    obtain ⟨h3, h4⟩ := hi.store.2 k ho
    refine ⟨h3, ?_⟩
    have h5 := (outstanding_iff _ _).mp h4
    have h6 : ¬ dist s.sb s.store[k].seq < dist s.sb r := fun hlt => by
      have h7 := hfree _ h4
      rw [if_pos hlt, store_congr _ h3] at h7
      change ((freeSlots _ _ _).store[k]).occupied = true at hk
      rw [h7] at hk
      cases hk
    have h8 : dist r s.store[k].seq = dist s.sb s.store[k].seq - dist s.sb r := dist_shift (by omega)
    change decide (dist r s.store[k].seq < dist r s.sm) = true
    rw [h8, hwin, decide_eq_true_eq]
    omega
  · obtain ⟨he, ho⟩ := hocc k hk
    change (∃ p, p.length ≤ 256 ∧ ((freeSlots _ _ _).store[k]).frame = encodeFrame ((freeSlots _ _ _).store[k]).seq .cmd false p)
      ∧ ReadsOk ((freeSlots _ _ _).store[k]).reads
    rw [he]
    exact hi.slots k ho
  · simpa [PendingOk] using hi.pending
  · simpa [RealtimeOk] using hi.realtime
  · simpa [DeframerOk] using hi.deframer
  · simp
  · simpa using hi.cause
  · simpa using hi.shadow
  · simpa using hi.params

/-- Under the invariant ON_ACK never stops, and it keeps the invariant. -/
theorem onAck_inv (r : Byte) {s : State} (hi : Inv s) : ∃ u, onAck r s = .ok u ∧ Inv u := by
  have hr : Inv { s with rn := r } :=
    ⟨hi.window, hi.sn, hi.store, hi.slots, hi.pending, hi.realtime, hi.deframer, hi.retx, hi.cause, hi.shadow, hi.params⟩
  by_cases h1 : window s < dist s.sb r
  · rw [onAck_outOfOrder h1]; exact recover_inv _ hr
  · by_cases h2 : dist s.sb r = 0
    · refine ⟨_, ?_, hr⟩
      rw [onAck, if_neg h1, if_pos h2]
    · exact ⟨_, onAck_advance (by omega) (by omega), onAck_advance_inv hi (by omega)⟩

/-! ### The receive path -/

theorem withShadow_inv {s : State} {m : Memory} (hi : Inv s) (hm : Memory.wf m) : Inv { s with shadow := m } :=
  ⟨hi.window, hi.sn, hi.store, hi.slots, hi.pending, hi.realtime, hi.deframer, hi.retx, hi.cause, hm, hi.params⟩

/-- A READ list the batcher built is filled without leaving the shadow. -/
theorem ackIn_inv (r : Byte) (p : List Byte) {s : State} (hi : Inv s) : ∃ u, ackIn r p s = .ok u ∧ Inv u := by
  unfold ackIn
  split
  · next hc =>
    simp only [ackCarriesData, Bool.and_eq_true] at hc
    have ho := hc.2.1.1
    obtain ⟨u, hu⟩ := shadowFill_complete (rs := (s.slot (r - 1#8)).reads) (p := p) (s := s)
      (fun x hx => ((hi.slots (slotIndex (r - 1#8)) ho).2.1 x hx).2.2)
    obtain ⟨h1, h2⟩ := shadowFill_ok hu
    rw [hu]
    have hiu : Inv u := by rw [h1]; exact withShadow_inv hi (h2 hi.shadow)
    exact onAck_inv r hiu
  · exact onAck_inv r hi

theorem dispatch_inv (seq tag : Byte) (rt : Bool) (p : List Byte) {s : State} (hi : Inv s) :
    ∃ u, dispatch seq tag rt p s = .ok u ∧ Inv u := by
  unfold dispatch
  split
  · exact ⟨_, rfl, hi.answers _⟩
  · split
    · exact ⟨_, rfl, hi.answers _⟩
    · split
      · exact ackIn_inv _ _ hi
      · exact ⟨_, rfl, hi⟩

/-- A move of the deframer alone. -/
theorem withDeframer_inv {s : State} {st : RxState} {buf : List Byte} {need : Nat} (hi : Inv s)
    (hd : DeframerOk { s with rxState := st, rxBuf := buf, rxNeed := need }) :
    Inv { s with rxState := st, rxBuf := buf, rxNeed := need } :=
  ⟨hi.window, hi.sn, hi.store, hi.slots, hi.pending, hi.realtime, hd, hi.retx, hi.cause, hi.shadow, hi.params⟩

theorem rxIdle_inv {s : State} (hi : Inv s) : Inv s.rxIdle :=
  withDeframer_inv hi ⟨by simp, rfl⟩

theorem frameBad_inv {s : State} (hi : Inv s) : ∃ u, frameBad s = .ok u ∧ Inv u :=
  recover_inv _ ⟨hi.window, hi.sn, hi.store, hi.slots, hi.pending, hi.realtime, hi.deframer, hi.retx, hi.cause,
    hi.shadow, hi.params⟩

/-- Under the invariant RX_BYTE never stops, and it keeps the invariant. -/
theorem receiveByte_inv (b : Byte) {s : State} (hi : Inv s) : ∃ u, receiveByte b s = .ok u ∧ Inv u := by
  by_cases hf : s.fatal = true
  · exact ⟨s, receiveByte_fatal hf, hi⟩
  · have hf' : s.fatal = false := by simpa using hf
    have hd := hi.deframer
    rcases hs : s.rxState with - | -
    · rw [receiveByte_sync hf' hs]
      refine ⟨_, rfl, ?_⟩
      simp only [DeframerOk, hs] at hd
      rw [syncStep_frame]
      refine withDeframer_inv (s := s) hi ?_
      rcases hb : s.rxBuf with - | ⟨x, - | ⟨y, - | ⟨z, - | ⟨w, l⟩⟩⟩⟩
      · simp [syncStep, DeframerOk, hs, hd.2]
      · simp [syncStep, DeframerOk, hs, hd.2]
      · simp [syncStep, DeframerOk, hs, hd.2]
      · simp only [syncStep, List.cons_append, List.nil_append]
        split
        · next h => simp [DeframerOk, h, Config.crcWidth]
        · simp [DeframerOk, hs, hd.2]
      · rw [hb] at hd
        have := hd.1
        simp at this
        omega
    · rw [receiveByte_pload hf' hs, ploadStep]
      simp only [DeframerOk, hs] at hd
      obtain ⟨h1, h2, h3, h4⟩ := hd
      split
      · next hlt =>
        refine ⟨_, rfl, ?_⟩
        have := withDeframer_inv (s := s) (st := .ploadCrc) (buf := s.rxBuf ++ [b]) (need := s.rxNeed) hi ?_
        · rw [← hs] at this; exact this
        · simp only [DeframerOk]
          have hg : ∀ i, i < 4 → (s.rxBuf ++ [b]).getD i 0#8 = s.rxBuf.getD i 0#8 := fun i hi =>
            List.getD_append _ _ _ _ (by omega)
          rw [hg 1 (by omega), hg 2 (by omega), hg 3 (by omega)]
          simp only [List.length_append, List.length_singleton] at hlt ⊢
          exact ⟨h1, h2, by omega, hlt⟩
      · have hidle : Inv ({ s with rxBuf := s.rxBuf ++ [b] } : State).rxIdle := rxIdle_inv (s := s) hi
        split
        · exact dispatch_inv _ _ _ _ hidle
        · exact frameBad_inv hidle

/-- Under the invariant a chunk of received bytes never stops, and it keeps the invariant. -/
theorem receiveBytes_inv (bs : List Byte) {s : State} (hi : Inv s) : ∃ u, receiveBytes bs s = .ok u ∧ Inv u := by
  induction bs generalizing s with
  | nil => exact ⟨s, rfl, hi⟩
  | cons b bs ih =>
    obtain ⟨u, hu, hi'⟩ := receiveByte_inv b hi
    rw [receiveBytes, hu]
    exact ih hi'

/-! ### The resets -/

theorem channelReset_inv {s : State} (hi : Inv s) : Inv (channelReset s) := by
  have hocc : ∀ k : Fin Config.storeSize, (channelReset s).store[k].occupied = false := by
    intro k; simp [channelReset]
  refine ⟨?_, rfl, ⟨fun q hq => ?_, fun k hk => ?_⟩, fun k hk => ?_, ?_, ?_, ?_, ?_, ?_, hi.shadow, hi.params⟩
  · change dist _ _ ≤ 64
    simp [channelReset]
  · have : dist (channelReset s).sb (channelReset s).sm = 0 := by simp [channelReset]
    simp [outstanding, window, this] at hq
  · rw [hocc k] at hk; cases hk
  · rw [hocc k] at hk; cases hk
  · exact ⟨by simp [channelReset], by simp [channelReset], by simp [channelReset, readTotal], readsOk_nil,
      fun _ => ⟨rfl, rfl⟩⟩
  · intro h; cases h
  · exact ⟨by simp [channelReset], rfl⟩
  · exact Nat.zero_le _
  · exact ⟨fun _ => rfl, fun _ => rfl⟩

theorem powerOnReset_inv {s : State} (hi : Inv s) : Inv (powerOnReset s) := by
  refine channelReset_inv ⟨hi.window, hi.sn, hi.store, hi.slots, hi.pending, hi.realtime, hi.deframer, hi.retx,
    hi.cause, ⟨List.Pairwise.nil, by simp⟩, hi.params⟩

end Sys2Proof.Machine
end

