-- ==== Sys2Proof/Laws/PerInstr.lean ====
section
/-!
SUPPORT. One statement per instruction, about its encoding: the encoder puts it at the port its row of
spec/opcode_table.json names, with the selecting bits the row matches.
-/

namespace Sys2Proof.Laws.PortFormat

/-- A command record whose byte 0 has the row's bits 7:6 (R76). -/
def RecordOp (op : BitVec 2) (i : Instr) : Prop :=
  ∃ b r, encode i = .record (b :: r) ∧ b.extractLsb' 6 2 = op

/-- A frame with the row's TAG byte and RT bit (R73, R74). -/
def FrameKind (tag : Byte) (rt : Bool) (i : Instr) : Prop :=
  ∃ h0 h2 h3 r, encode i = .wire (h0 :: tag :: h2 :: h3 :: r) ∧ h3.getLsbD 7 = rt

/-- The port and the selecting bits of an instruction's row. -/
def Statement (i : Instr) : Prop :=
  match i with
  | .qcmd _ => ∃ w, encode i = .host (0x01#8 :: w)
  | .flush => encode i = .host [0x02#8]
  | .rdsh _ _ => ∃ w, encode i = .host (0x03#8 :: w) ∧ w.length = 4
  | .rtsub _ => ∃ w, encode i = .host (0x04#8 :: w)
  | .chrst => encode i = .host [0x05#8]
  | .status => encode i = .host [0x06#8]
  | .illegal w => encode i = .host w
  | .rxByte b => encode i = .rx b
  | .timeout => encode i = .timeout
  | .ioerr => encode i = .ioerr
  | .txrt => encode i = .txrt
  | .por => encode i = .por
  | .readFifo _ _ => RecordOp 0b00#2 i
  | .readAi _ _ => RecordOp 0b01#2 i
  | .writeFifo _ _ => RecordOp 0b10#2 i
  | .writeAi _ _ => RecordOp 0b11#2 i
  | .frameCmd _ _ => FrameKind 0xD0#8 false i
  | .frameCmdRt _ _ => FrameKind 0xD0#8 true i
  | .frameAck _ _ => FrameKind 0xD1#8 false i
  | .frameMailbox _ _ => FrameKind 0xD2#8 false i
  | .frameRtResult tag _ _ => FrameKind (Machine.tagByte tag) true i
  | .frameReserved h0 h1 h2 h3 => encode i = .wire [h0, h1, h2, h3]
  | .wr a d => encode i = .line (.wr a d)
  | .rd a n => encode i = .line (.rd a n)
  | .push a d => encode i = .line (.push a d)
  | .wrsync a d => encode i = .line (.wrsync a d)
  | .rdsync a n => encode i = .line (.rdsync a n)
  | .poll bs => encode i = .line (.poll bs)

theorem record_bits (w : Bool) (m : Mode) (h : BitVec 6) :
    (Machine.writeBit w ||| Machine.modeBits m ||| h.setWidth 8).extractLsb' 6 2
      = (if w then 0b10#2 else 0b00#2) ||| (if m = .ai then 0b01#2 else 0b00#2) := by
  cases w <;> cases m <;> revert h <;> decide

theorem qcmd (r : Request) : Statement (.qcmd r) :=
  ⟨_, rfl⟩
theorem flush : Statement .flush :=
  rfl
theorem rdsh (a n : Half) : Statement (.rdsh a n) :=
  ⟨_, rfl, rfl⟩
theorem rtsub (rs : List Request) : Statement (.rtsub rs) :=
  ⟨_, rfl⟩
theorem chrst : Statement .chrst :=
  rfl
theorem status : Statement .status :=
  rfl
theorem illegal (w : List Byte) : Statement (.illegal w) :=
  rfl
theorem rxByte (b : Byte) : Statement (.rxByte b) :=
  rfl
theorem timeout : Statement .timeout :=
  rfl
theorem ioerr : Statement .ioerr :=
  rfl
theorem txrt : Statement .txrt :=
  rfl
theorem por : Statement .por :=
  rfl
theorem readFifo (a : RegAddr) (n : Nat) : Statement (.readFifo a n) :=
  ⟨_, _, rfl, record_bits false .fifo _⟩
theorem readAi (a : RegAddr) (n : Nat) : Statement (.readAi a n) :=
  ⟨_, _, rfl, record_bits false .ai _⟩
theorem writeFifo (a : RegAddr) (d : List Byte) : Statement (.writeFifo a d) :=
  ⟨_, _, rfl, record_bits true .fifo _⟩
theorem writeAi (a : RegAddr) (d : List Byte) : Statement (.writeAi a d) :=
  ⟨_, _, rfl, record_bits true .ai _⟩
theorem frameCmd (q : Byte) (p : List Byte) : Statement (.frameCmd q p) :=
  ⟨_, _, _, _, rfl, Machine.rtBit_encode false p.length⟩
theorem frameCmdRt (q : Byte) (p : List Byte) : Statement (.frameCmdRt q p) :=
  ⟨_, _, _, _, rfl, Machine.rtBit_encode true p.length⟩
theorem frameAck (q : Byte) (p : List Byte) : Statement (.frameAck q p) :=
  ⟨_, _, _, _, rfl, Machine.rtBit_encode false p.length⟩
theorem frameMailbox (q : Byte) (p : List Byte) : Statement (.frameMailbox q p) :=
  ⟨_, _, _, _, rfl, Machine.rtBit_encode false p.length⟩
theorem frameRtResult (t : Tag) (q : Byte) (p : List Byte) : Statement (.frameRtResult t q p) :=
  ⟨_, _, _, _, rfl, Machine.rtBit_encode true p.length⟩
theorem frameReserved (h0 h1 h2 h3 : Byte) : Statement (.frameReserved h0 h1 h2 h3) :=
  rfl
theorem wr (a : Half) (d : List Byte) : Statement (.wr a d) :=
  rfl
theorem rd (a n : Half) : Statement (.rd a n) :=
  rfl
theorem push (a : Half) (d : List Byte) : Statement (.push a d) :=
  rfl
theorem wrsync (a : Half) (d : List Byte) : Statement (.wrsync a d) :=
  rfl
theorem rdsync (a n : Half) : Statement (.rdsync a n) :=
  rfl
theorem poll (bs : List Byte) : Statement (.poll bs) :=
  rfl

end Sys2Proof.Laws.PortFormat
end

