-- ==== Sys2Proof/Tests/Slice0.lean ====
section
/-!
SUPPORT. The session's own tests: the checks of well-formedness, words of spec/30_encoding.md and
spec/95_test_vectors.md through the decoder, single steps of the vectors of spec/95, and for every
obligation with hypotheses a concrete state and operands that meet them.
-/

namespace Sys2Proof.Tests

-- One theorem after the other: each kernel evaluation elaborated at once would hold a thread of its own.
set_option Elab.async false

open Sys2Proof.Machine

/-! ### Well-formedness refuses -/

theorem test_wf_request_data : (Request.write .ai 0#16 (List.replicate 65536 0#8)).wellFormed = false := by
  rw [Request.wellFormed, List.length_replicate]; decide
theorem test_wf_rtsub_count : (Instr.rtsub (List.replicate 256 (.read .ai 0#16 0#16))).wellFormed = false := by
  decide +kernel
theorem test_wf_illegal_is_illegal : (Instr.illegal [0x05#8]).wellFormed = false := by decide +kernel
theorem test_wf_illegal_full_qcmd :
    (Instr.illegal [0x01#8, 0x40#8, 0x00#8, 0x20#8, 0x00#8, 0x04#8]).wellFormed = false := by decide +kernel
theorem test_wf_record_empty : (Instr.readAi 0x0020#14 0).wellFormed = false := by decide
theorem test_wf_record_long : (Instr.readFifo 0x0020#14 257).wellFormed = false := by decide
theorem test_wf_record_data : (Instr.writeAi 0x0020#14 []).wellFormed = false := by decide
theorem test_wf_payload : (Instr.frameAck 0#8 (List.replicate 257 0#8)).wellFormed = false := by decide +kernel
theorem test_wf_realtime_command : (Instr.frameRtResult .cmd 0#8 []).wellFormed = false := by decide
theorem test_wf_reserved_valid_header : (Instr.frameReserved 0#8 0xD0#8 0x00#8 0x01#8).wellFormed = false := by
  decide
theorem test_wf_line_data : (Instr.wr 0#16 (List.replicate 65536 0#8)).wellFormed = false := by
  rw [Instr.wellFormed, lineDataOk, List.length_replicate]; decide

/-! ### Words of the spec (spec/95 H2 to H5, H7, E7 to E10, E12, section 2.2, P6) -/

/-- What the decoder answers, where it answers. -/
def decoded (x : Input) : Option Instr :=
  match decode x with
  | .ok i => some i
  | .error _ => none

theorem test_decode_qcmd_read :
    decoded (.host [0x01#8, 0x40#8, 0x00#8, 0x20#8, 0x00#8, 0x04#8])
      = some (.qcmd (.read .ai 0x0020#16 4#16)) := by decide +kernel
theorem test_decode_qcmd_push :
    decoded (.host [0x01#8, 0x80#8, 0x00#8, 0x21#8, 0x00#8, 0x01#8, 0xAA#8])
      = some (.qcmd (.write .fifo 0x0021#16 [0xAA#8])) := by decide +kernel
theorem test_decode_rdsh :
    decoded (.host [0x03#8, 0x00#8, 0x20#8, 0x00#8, 0x04#8]) = some (.rdsh 0x0020#16 4#16) := by decide +kernel
theorem test_decode_bare :
    [decoded (.host [0x02#8]), decoded (.host [0x05#8]), decoded (.host [0x06#8])]
      = [some .flush, some .chrst, some .status] := by decide +kernel
theorem test_decode_rtsub_two :
    decoded (.host [0x04#8, 0x02#8, 0xC0#8, 0x00#8, 0x20#8, 0x00#8, 0x02#8, 0x03#8, 0x04#8,
        0x40#8, 0x00#8, 0x80#8, 0x00#8, 0x02#8])
      = some (.rtsub [.write .ai 0x0020#16 [0x03#8, 0x04#8], .read .ai 0x0080#16 2#16]) := by decide +kernel
theorem test_decode_illegal :
    ([[0x07#8], [0x00#8], [], [0x01#8, 0x41#8, 0x00#8, 0x20#8, 0x00#8, 0x04#8], [0x02#8, 0x00#8],
      [0x03#8, 0x00#8, 0x20#8, 0x00#8], [0x01#8, 0xC0#8, 0x00#8, 0x20#8, 0x00#8, 0x02#8, 0xAA#8],
      [0x04#8, 0x01#8, 0xC0#8, 0x00#8, 0x20#8, 0x00#8, 0x01#8]] : List (List Byte)).all
        (fun w => decodeHostWord w = .illegal w) = true := by decide +kernel
theorem test_decode_records :
    [decoded (.record [0x40#8, 0x20#8, 0x03#8]), decoded (.record [0x3F#8, 0xFF#8, 0xFF#8]),
      decoded (.record [0x80#8, 0x21#8, 0x00#8, 0x55#8]), decoded (.record [0xFF#8, 0xFF#8, 0x00#8, 0x01#8])]
      = [some (.readAi 0x0020#14 4), some (.readFifo 0x3FFF#14 256), some (.writeFifo 0x0021#14 [0x55#8]),
         some (.writeAi 0x3FFF#14 [0x01#8])] := by decide +kernel
theorem test_decode_ack :
    decoded (.wire [0x01#8, 0xD1#8, 0x04#8, 0x00#8, 0x01#8, 0x02#8, 0x03#8, 0x04#8, 0x84#8, 0x40#8])
      = some (.frameAck 0x01#8 [0x01#8, 0x02#8, 0x03#8, 0x04#8]) := by decide +kernel
theorem test_decode_mailbox :
    decoded (.wire [0x00#8, 0xD2#8, 0x02#8, 0x00#8, 0xDE#8, 0xAD#8, 0xC2#8, 0x76#8])
      = some (.frameMailbox 0x00#8 [0xDE#8, 0xAD#8]) := by decide +kernel
theorem test_decode_realtime :
    [decoded (.wire [0x00#8, 0xD1#8, 0x01#8, 0x80#8, 0xAA#8, 0xF7#8, 0xB3#8]),
      decoded (.wire [0x00#8, 0xD0#8, 0x00#8, 0x80#8, 0x70#8, 0xDC#8])]
      = [some (.frameRtResult .ack 0x00#8 [0xAA#8]), some (.frameCmdRt 0x00#8 [])] := by decide +kernel
theorem test_decode_command :
    decoded (.wire [0x00#8, 0xD0#8, 0x00#8, 0x00#8, 0xE1#8, 0x54#8]) = some (.frameCmd 0x00#8 []) := by
  decide +kernel
theorem test_decode_reserved_header :
    decoded (.wire [0x00#8, 0xD0#8, 0x00#8, 0x40#8])
      = some (.frameReserved 0x00#8 0xD0#8 0x00#8 0x40#8) := by decide +kernel
theorem test_decode_line : decoded (.line (.poll [0x07#8])) = some (.poll [0x07#8]) := by decide +kernel

/-- Section 2.2. -/
theorem test_header_validity :
    [hdrValid 0xD0#8 0x00#8 0x00#8, hdrValid 0xD0#8 0x00#8 0x80#8, hdrValid 0xD0#8 0x00#8 0x01#8,
      hdrValid 0xD2#8 0xFF#8 0x80#8, hdrValid 0xD1#8 0x00#8 0x81#8, hdrValid 0xD3#8 0x00#8 0x00#8,
      hdrValid 0x00#8 0x00#8 0x00#8, hdrValid 0xD0#8 0x00#8 0x02#8, hdrValid 0xD0#8 0x00#8 0x40#8,
      hdrValid 0xD0#8 0x01#8 0x01#8]
      = [true, true, true, true, true, false, false, false, false, false] := by decide +kernel
/-- CRC1 and CRC2. -/
theorem test_crc :
    crc [0x31#8, 0x32#8, 0x33#8, 0x34#8, 0x35#8, 0x36#8, 0x37#8, 0x38#8, 0x39#8] = 0x29B1#16
      ∧ crc [] = 0xFFFF#16 := by decide +kernel
/-- E2. -/
theorem test_encode_frame :
    encodeFrame 0x00#8 .cmd false [0xC0#8, 0xFC#8, 0x03#8, 0x8B#8, 0x8B#8, 0x00#8, 0x00#8]
      = [0x00#8, 0xD0#8, 0x07#8, 0x00#8, 0xC0#8, 0xFC#8, 0x03#8, 0x8B#8, 0x8B#8, 0x00#8, 0x00#8, 0x6D#8, 0x08#8] := by
  decide +kernel
/-- Section 2.4. -/
theorem test_sequence_arithmetic :
    [before 0#8 1#8, before 1#8 0#8, before 255#8 0#8, before 0#8 255#8, before 0#8 127#8, before 0#8 128#8,
      before 10#8 10#8, before 200#8 72#8] = [true, false, true, false, true, false, false, false]
      ∧ dist 200#8 72#8 = 128 := by decide +kernel
/-- Words of the opcode table: the row's instruction with zero operands. -/
theorem test_table_words :
    [decodeTableWord 8 0x01, decodeTableWord 8 0x40, decodeTableWord 16 0xD100, decodeTableWord 16 0xD280]
      = [some (.qcmd (.read .fifo 0#16 0#16)), some (.readAi 0#14 1), some (.frameAck 0#8 []),
         some (.frameRtResult .mailbox 0#8 [])] := by decide +kernel

/-! ### States of the vectors -/

/-- The state after an outcome, where there is one. -/
def nextOf : Host.Outcome State Fault Refusal → Option State
  | .next s => some s
  | .fault _ => none
  | .refused _ => none

/-- What the last operation put out. -/
def lastOut (o : Host.Outcome State Fault Refusal) : Option Output := (nextOf o).bind fun s => s.history.getLast?

/-- The pending frame of S1: `QCMD READ.AI 0x20, 4`. -/
def pendingRead : State :=
  { State.reset with
    pendBytes := [0x40#8, 0x20#8, 0x03#8], pendReads := [{ mode := .ai, addr := 0x0020#14, n := 4 }], pendResp := 4 }

/-- The frame of S1, as the wire carries it. -/
def readFrame : List Byte := encodeFrame 0x00#8 .cmd false [0x40#8, 0x20#8, 0x03#8]

/-- S1 after its FLUSH: frame 0 is outstanding and asks for four bytes. -/
def oneOut : State :=
  { State.reset with
    sn := 0x01#8, sm := 0x01#8
    store := State.reset.store.set 0
      { occupied := true, seq := 0x00#8, frame := readFrame, reads := [{ mode := .ai, addr := 0x0020#14, n := 4 }] } }

/-- The same with a FIFO read: S2 after its FLUSH. -/
def oneOutFifo : State :=
  { State.reset with
    sn := 0x01#8, sm := 0x01#8
    store := State.reset.store.set 0
      { occupied := true, seq := 0x00#8, frame := encodeFrame 0x00#8 .cmd false [0x00#8, 0x10#8, 0x02#8]
        reads := [{ mode := .fifo, addr := 0x0010#14, n := 3 }] } }

/-- `w = 64` by the registers alone. -/
def fullWindow : State := { pendingRead with sn := 0x40#8, sm := 0x40#8 }

/-- A4 after its first SUBMIT, with a pending frame: slot 0 is busy and `w = 1`. -/
def busySlot : State :=
  { oneOut with
    sn := 0x00#8, sm := 0x00#8, sb := 0xFF#8, pendBytes := [0x40#8, 0x20#8, 0x03#8]
    pendReads := [{ mode := .ai, addr := 0x0020#14, n := 4 }], pendResp := 4 }

/-- A pending frame with no room left: B4's record. -/
def fullPending : State :=
  { State.reset with pendBytes := [0xC0#8, 0x00#8, 0xFC#8] ++ List.replicate 253 0x00#8 }

/-- After IOERR. -/
def stopped : State := { State.reset with fatal := true, fatalCause := .ioError }

/-- T4: an empty realtime frame waits. -/
def realtimeWaits : State :=
  { State.reset with rtPending := true, rtFrame := [0x00#8, 0xD0#8, 0x00#8, 0x80#8, 0x70#8, 0xDC#8] }

/-- D3 and P4 before the last byte: a header and one CRC byte have come. -/
def inFrame (s : State) : State :=
  { s with rxState := .ploadCrc, rxBuf := [0x00#8, 0xD1#8, 0x00#8, 0x00#8, 0xD6#8], rxNeed := 2 }

/-- One slot written into the empty store. -/
theorem single_slot (v : Slot) (k : Fin Config.storeSize) :
    (State.reset.store.set 0 v)[k] = if k = 0 then v else emptySlot := by
  by_cases h : k = 0
  · subst h; simp
  · have hne : (0 : Nat) ≠ k := fun e => h (Fin.ext e.symm)
    rw [if_neg h]
    simp [hne, State.reset]

/-- The invariant of a state with frame 0 outstanding and nothing else going on. -/
theorem single_inv (p : List Byte) (reads : List ReadRec) (hp : p.length ≤ 256) (hr : ReadsOk reads) :
    Inv { State.reset with
      sn := 0x01#8, sm := 0x01#8
      store := State.reset.store.set 0
        { occupied := true, seq := 0x00#8, frame := encodeFrame 0x00#8 .cmd false p, reads := reads } } := by
  have hq : ∀ q : Byte, dist 0x00#8 q < dist 0x00#8 0x01#8 → q = 0x00#8 := by decide +kernel
  have hs := single_slot { occupied := true, seq := 0x00#8, frame := encodeFrame 0x00#8 .cmd false p, reads := reads }
  refine ⟨(by decide : dist 0x00#8 0x01#8 ≤ 64), rfl, ⟨fun q h => ?_, fun k h => ?_⟩, fun k h => ?_, ?_, (fun h => nomatch h),
    ⟨Nat.zero_le _, rfl⟩, Nat.zero_le _, ⟨fun _ => rfl, fun _ => rfl⟩, State.reset_shadow_wf, (by decide : 1 ≤ Params.ofVectors.crcHealthThreshold.toNat)⟩
  · obtain rfl := hq q (of_decide_eq_true h)
    exact ⟨by rw [State.slot]; simp [slotIndex], by rw [State.slot]; simp [slotIndex]⟩
  · have hk := hs k
    split at hk
    · next h0 => subst h0; rw [hk]; exact ⟨rfl, (by decide : decide (dist 0x00#8 0x00#8 < dist 0x00#8 0x01#8) = true)⟩
    · change ((State.reset.store.set 0 _)[k]).occupied = true at h
      rw [hk] at h; cases h
  · have hk := hs k
    split at hk
    · rw [hk]; exact ⟨⟨p, hp, rfl⟩, hr⟩
    · change ((State.reset.store.set 0 _)[k]).occupied = true at h
      rw [hk] at h; cases h
  · exact ⟨Nat.zero_le _, Nat.zero_le _, rfl, readsOk_nil, fun _ => ⟨rfl, rfl⟩⟩

theorem oneOut_inv : Inv oneOut :=
  single_inv [0x40#8, 0x20#8, 0x03#8] [{ mode := .ai, addr := 0x0020#14, n := 4 }] (by decide)
    (by unfold ReadsOk; decide)
theorem oneOutFifo_inv : Inv oneOutFifo :=
  single_inv [0x00#8, 0x10#8, 0x02#8] [{ mode := .fifo, addr := 0x0010#14, n := 3 }] (by decide)
    (by unfold ReadsOk; decide)

/-! ### Single steps of the vectors -/

/-- B1: address bits 13:8 go to byte 0. -/
theorem test_qcmd_top_address :
    (nextOf (exec (.qcmd (.write .ai 0x3FFF#16 [0x01#8])) State.reset)).map (fun t => (t.pendBytes, t.history))
      = some ([0xFF#8, 0xFF#8, 0x00#8, 0x01#8], [.result [0x00#8]]) := by decide +kernel
/-- B2: one byte too far. -/
theorem test_qcmd_out_of_range :
    lastOut (exec (.qcmd (.write .ai 0x3FFF#16 [0x01#8, 0x02#8])) State.reset) = some (.result [0x02#8]) := by
  decide +kernel
/-- L1-3, P1: FLUSH of the source's WRITE. -/
theorem test_flush_frame :
    (nextOf (exec .flush { State.reset with
        pendBytes := [0xC0#8, 0xFC#8, 0x03#8, 0x8B#8, 0x8B#8, 0x00#8, 0x00#8] })).map (fun t => (t.sm, t.history))
      = some (0x01#8, [.event (.tx [0x00#8, 0xD0#8, 0x07#8, 0x00#8, 0xC0#8, 0xFC#8, 0x03#8, 0x8B#8, 0x8B#8,
          0x00#8, 0x00#8, 0x6D#8, 0x08#8]), .result [0x00#8, 0x00#8]]) := by decide +kernel
/-- A4: slot 0 is busy with frame 255 when 0 is to be assigned. -/
theorem test_flush_busy_slot : lastOut (exec .flush busySlot) = some (.result [0x01#8]) := by decide +kernel
/-- B15: RDSH checks the range even for n = 0. -/
theorem test_rdsh_edges :
    [lastOut (exec (.rdsh 0x3FFF#16 1#16) State.reset), lastOut (exec (.rdsh 0x3FFF#16 2#16) State.reset),
      lastOut (exec (.rdsh 0x4000#16 0#16) State.reset), lastOut (exec (.rdsh 0x4001#16 0#16) State.reset)]
      = [some (.result [0x00#8, 0x00#8]), some (.result [0x02#8]), some (.result [0x00#8]),
         some (.result [0x02#8])] := by decide +kernel
/-- P6: a WRITE and a READ in one realtime frame. -/
theorem test_rtsub_two_records :
    (nextOf (exec (.rtsub [.write .ai 0x0020#16 [0x03#8, 0x04#8], .read .ai 0x0080#16 2#16]) State.reset)).map
        (fun t => (t.rtPending, t.rtFrame))
      = some (true, [0x00#8, 0xD0#8, 0x08#8, 0x80#8, 0xC0#8, 0x20#8, 0x01#8, 0x03#8, 0x04#8, 0x40#8, 0x80#8, 0x01#8,
          0xFB#8, 0x72#8]) := by decide +kernel
/-- T2: 203 + 63 bytes are too many. -/
theorem test_rtsub_too_large :
    lastOut (exec (.rtsub [.write .ai 0#16 (List.replicate 200 0x00#8), .write .ai 0#16 (List.replicate 60 0x00#8)])
        State.reset) = some (.result [0x03#8]) := by decide +kernel
/-- C1: CHRST keeps the CRC-error counter and the shadow. -/
theorem test_chrst_keeps :
    (nextOf (exec .chrst { oneOut with crcErrors := 1#32, retxCount := 1, shadow := [(5, 0x5A#8)] })).map
        (fun t => (t.sm, t.retxCount, t.crcErrors, t.shadow.read 5, (t.slot 0x00#8).occupied))
      = some (0x00#8, 0, 1#32, 0x5A#8, false) := by decide +kernel
/-- H8: STATUS in FATAL. -/
theorem test_status_fatal :
    lastOut (exec .status stopped)
      = some (.result ([0x00#8] ++ List.replicate 10 0x00#8 ++ [0x01#8, 0x03#8] ++ List.replicate 4 0x00#8)) := by
  decide +kernel
/-- H8: an illegal word is ILLEGAL_OP in FATAL too. -/
theorem test_illegal_fatal : lastOut (exec (.illegal [0x07#8]) stopped) = some (.result [0x05#8]) := by decide +kernel
/-- D3: the last byte of an acknowledgement with its last bit flipped. -/
theorem test_rx_byte_bad_crc :
    (nextOf (exec (.rxByte 0x65#8) (inFrame State.reset))).map (fun t => (t.rxState, t.rxBuf, t.crcErrors, t.history))
      = some (.sync, [], 1#32, [.event (.crcError 1#32)]) := by decide +kernel
/-- A9b: with MAX_RETX = 0 the counter's event comes before FATAL's. -/
theorem test_rx_byte_bad_crc_limit :
    (nextOf (exec (.rxByte 0x65#8)
        { inFrame oneOut with params := { State.reset.params with maxRetx := 0#8 } })).map (fun t => t.history)
      = some [.event (.crcError 1#32), .event (.fatal .maxRetransmitExceeded 0#8 1#8 0#8 1#32 0)] := by decide +kernel
/-- A5, P5: a timeout resends the outstanding frame. -/
theorem test_timeout_resends :
    (nextOf (exec .timeout oneOut)).map (fun t => (t.retxCount, t.history)) = some (1, [.event (.tx readFrame)]) := by
  decide +kernel
/-- A7, A9: at the limit FATAL(1) carries the count. -/
theorem test_timeout_limit :
    (nextOf (exec .timeout { oneOut with retxCount := 3 })).map (fun t => (t.fatal, t.history))
      = some (true, [.event (.fatal .linkTimeout 0#8 1#8 0#8 0#32 3)]) := by decide +kernel
/-- T5. -/
theorem test_ioerr :
    lastOut (exec .ioerr State.reset) = some (.event (.fatal .ioError 0#8 0#8 0#8 0#32 0)) := by decide +kernel
/-- T4, T1. -/
theorem test_txrt :
    (nextOf (exec .txrt realtimeWaits)).map (fun t => (t.rtPending, t.history))
      = some (false, [.event (.tx [0x00#8, 0xD0#8, 0x00#8, 0x80#8, 0x70#8, 0xDC#8])]) := by decide +kernel
/-- R-1. -/
theorem test_por :
    (nextOf (exec .por { oneOut with crcErrors := 7#32, fatal := true, fatalCause := .ioError, shadow := [(5, 0x5A#8)] })).map
        (fun t => (t.crcErrors, t.shadow.length, t.fatal, t.sm, t.history.length)) = some (0#32, 0, false, 0x00#8, 0) := by
  decide +kernel
/-- E7, E8: the records as they join the pending frame. -/
theorem test_records_join :
    [(nextOf (exec (.readAi 0x0020#14 4) State.reset)).map (fun t => (t.pendBytes, t.pendResp)),
      (nextOf (exec (.writeFifo 0x0021#14 [0x55#8]) State.reset)).map (fun t => (t.pendBytes, t.pendResp))]
      = [some ([0x40#8, 0x20#8, 0x03#8], 4), some ([0x80#8, 0x21#8, 0x00#8, 0x55#8], 0)] := by decide +kernel
/-- S1: the read data lands and the window advances. -/
theorem test_ack_read_data :
    (nextOf (exec (.frameAck 0x01#8 [0x01#8, 0x02#8, 0x03#8, 0x04#8]) oneOut)).map
        (fun t => (t.sb, t.rn, (t.slot 0x00#8).occupied, t.shadow))
      = some (0x01#8, 0x01#8, false, [(0x20, 0x01#8), (0x21, 0x02#8), (0x22, 0x03#8), (0x23, 0x04#8)]) := by
  decide +kernel
/-- S3: a payload of another length leaves the shadow alone. -/
theorem test_ack_wrong_length :
    (nextOf (exec (.frameAck 0x01#8 [0x01#8, 0x02#8, 0x03#8]) oneOut)).map (fun t => (t.sb, t.shadow))
      = some (0x01#8, []) := by decide +kernel
/-- S6. -/
theorem test_frames_passed_on :
    [(nextOf (exec (.frameMailbox 0x00#8 [0xDE#8, 0xAD#8]) State.reset)).map (fun t => t.history),
      (nextOf (exec (.frameRtResult .ack 0x00#8 [0xAA#8]) State.reset)).map (fun t => t.history),
      (nextOf (exec (.frameCmd 0x03#8 [0x01#8]) State.reset)).map (fun t => t.history)]
      = [some [.event (.mailbox [0xDE#8, 0xAD#8])], some [.event (.rtResult [0xAA#8])], some []] := by decide +kernel
/-- D5: an invalid header slides. -/
theorem test_reserved_header :
    (nextOf (exec (.frameReserved 0x00#8 0xD0#8 0x01#8 0x01#8) State.reset)).map (fun t => (t.rxState, t.rxBuf))
      = some (.sync, [0xD0#8, 0x01#8, 0x01#8]) := by decide +kernel
/-- P3: WRSYNC's frame and its two results. -/
theorem test_wrsync :
    (nextOf (exec (.wrsync 0x0080#16 [0x01#8]) State.reset)).map (fun t => t.history)
      = some [.result [0x00#8], .event (.tx [0x00#8, 0xD0#8, 0x04#8, 0x00#8, 0xC0#8, 0x80#8, 0x00#8, 0x01#8, 0xEE#8,
          0x2E#8]), .result [0x00#8, 0x00#8]] := by decide +kernel
/-- D7: a partial header and an acknowledgement make a 256-byte candidate, which swallows it. -/
theorem test_poll_swallowed :
    (nextOf (exec (.poll [0x07#8, 0xD0#8, 0x00#8, 0x01#8, 0xD1#8, 0x00#8, 0x00#8, 0xA0#8, 0xD0#8]) State.reset)).map
        (fun t => (t.rxState, t.rxNeed, t.rxBuf.length, t.history)) = some (.ploadCrc, 258, 9, []) := by decide +kernel
/-- The empty schedule's step is TXRT. -/
theorem test_step_idle : step State.reset = .next State.reset := rfl

/-! ### What the obligations assume is met -/

theorem stopped_fatal : stopped.fatal = true := rfl
theorem inFrame_inv : Inv (inFrame oneOut) :=
  withDeframer_inv oneOut_inv ⟨by decide, rfl, by decide, by decide⟩
theorem reset_ready : RxReady State.reset := ⟨rfl, rfl, rfl, rfl⟩
theorem oneOut_ready : RxReady oneOut := ⟨rfl, rfl, rfl, rfl⟩

theorem test_meets_decode_of_encode :
    (Instr.frameAck 0x01#8 (List.replicate 256 0x00#8)).wellFormed = true
      ∧ (Instr.qcmd (.write .ai 0x0000#16 (List.replicate 253 0x00#8))).wellFormed = true
      ∧ (Instr.illegal [0x07#8]).wellFormed = true ∧ (Instr.readAi 0x3FFF#14 256).wellFormed = true := by
  decide +kernel
theorem test_meets_decoder_answers :
    decode (.wire [0x00#8, 0xD0#8, 0x00#8, 0x40#8]) = .ok (.frameReserved 0x00#8 0xD0#8 0x00#8 0x40#8)
      ∧ decode (.line (.wr 0x0020#16 [0x01#8])) = .ok (.wr 0x0020#16 [0x01#8]) ∧ [0x01#8].length < 65536 :=
  ⟨congrArg Except.ok (by decide +kernel), rfl, by decide⟩
theorem test_meets_encode_lays_out : (List.replicate 256 0x00#8).length ≤ 256 := by decide +kernel
theorem test_meets_ack_test :
    (1 ≤ dist 0xFF#8 0x00#8 ∧ dist 0xFF#8 0x00#8 ≤ 64) ∧ 1 ≤ dist 0x00#8 0x40#8 ∧ dist 0x00#8 0x40#8 ≤ 64 := by
  decide +kernel
theorem test_meets_step_runs :
    ({ State.reset with inputs := [.host [0x02#8], .por] } : State).inputs = .host [0x02#8] :: [.por]
      ∧ decode (.host [0x02#8]) = .ok .flush ∧ State.reset.inputs = [] := ⟨rfl, rfl, rfl⟩
/-- R75: too short for the header, one data byte too few, and one byte too many behind a WRITE and a READ. -/
theorem test_meets_step_refuses :
    step { State.reset with inputs := [.record [0x80#8, 0x00#8]] } = .refused (.malformedRecord .recordTruncated)
      ∧ step { State.reset with inputs := [.record [0x80#8, 0x00#8, 0x01#8, 0x55#8]] }
        = .refused (.malformedRecord .recordTruncated)
      ∧ step { State.reset with inputs := [.record [0x80#8, 0x00#8, 0x00#8, 0x55#8, 0x55#8]] }
        = .refused (.malformedRecord .recordTrailing)
      ∧ step { State.reset with inputs := [.record [0x40#8, 0x20#8, 0x03#8, 0x00#8]] }
        = .refused (.malformedRecord .recordTrailing) := ⟨rfl, rfl, rfl, rfl⟩
theorem test_meets_every_step :
    Inv { oneOut with inputs := [.timeout] } ∧ ∃ t, step { oneOut with inputs := [.timeout] } = .next t :=
  ⟨oneOut_inv.observed _ _, _, rfl⟩
theorem test_meets_completes : Inv oneOut := oneOut_inv
theorem test_meets_window :
    window fullWindow ≤ 64 ∧ window fullWindow = 64 ∧ ∃ t, exec .flush fullWindow = .next t :=
  ⟨by decide, by decide, _, rfl⟩
theorem test_meets_own_slots :
    WindowOk oneOut ∧ StoreOk oneOut ∧ outstanding oneOut 0x00#8 = true ∧ slotIndex 0x00#8 = slotIndex 0x00#8 :=
  ⟨oneOut_inv.window, oneOut_inv.store, by decide, rfl⟩
theorem test_meets_immutable :
    ∃ t, exec .timeout oneOut = .next t ∧ oneOut.store[(0 : Fin Config.storeSize)].occupied = true
      ∧ t.store[(0 : Fin Config.storeSize)].occupied = true := ⟨_, rfl, by decide +kernel, by decide +kernel⟩
theorem test_meets_history : ∃ t, exec .flush pendingRead = .next t := ⟨_, rfl⟩
theorem test_meets_crc_counter : Instr.timeout ≠ .por ∧ ∃ t, exec .timeout oneOut = .next t := ⟨by decide, _, rfl⟩
theorem test_meets_shadow_written :
    (nextOf (exec (.frameAck 0x01#8 [0x01#8, 0x02#8, 0x03#8, 0x04#8]) oneOut)).map
        (fun t => decide (t.shadow.read 0x20 ≠ oneOut.shadow.read 0x20)) = some true := by decide +kernel
theorem test_meets_leave_fatal :
    stopped.fatal = true ∧ Instr.flush ≠ .chrst ∧ Instr.flush ≠ .por ∧ ∃ t, exec .flush stopped = .next t :=
  ⟨rfl, by decide, by decide, _, rfl⟩
theorem test_meets_errors :
    ∃ t, exec (.rdsh 0x4001#16 0#16) State.reset = .next t ∧ t.history.getLast? = some (.result (0x02#8 :: []))
      ∧ (0x02#8 : Byte) ≠ 0x00#8 := ⟨_, rfl, by decide +kernel, by decide⟩
theorem test_meets_qcmd_early :
    stopped.fatal = true ∧ State.reset.fatal = false ∧ (Request.read .ai 0x4000#16 0#16).len = 0
      ∧ (Request.read .ai 0x4000#16 1#16).len ≠ 0
      ∧ 16384 < (Request.read .ai 0x4000#16 1#16).addr.toNat + (Request.read .ai 0x4000#16 1#16).len
      ∧ (Request.read .ai 0x0000#16 257#16).addr.toNat + (Request.read .ai 0x0000#16 257#16).len ≤ 16384
      ∧ 256 < (Request.read .ai 0x0000#16 257#16).len
      ∧ 253 < (Request.write .ai 0x0000#16 (List.replicate 254 0x00#8)).len := by decide +kernel
theorem test_meets_accepted :
    Accepted (.write .ai 0x0000#16 (List.replicate 253 0x00#8)) ∧ Accepted (.read .ai 0x3FFF#16 1#16)
      ∧ Accepted (.read .fifo 0x0000#16 256#16) := by
  refine ⟨⟨?_, ?_, ?_⟩, ⟨?_, ?_, ?_⟩, ⟨?_, ?_, ?_⟩⟩ <;> decide +kernel
theorem test_meets_qcmd_fits :
    pendingRead.fatal = false ∧ Accepted (.read .ai 0x0020#16 252#16) ∧ FitsPending (.read .ai 0x0020#16 252#16) pendingRead
      ∧ State.reset.pendBytes = [] :=
  ⟨rfl, ⟨by decide, by decide, by decide⟩, ⟨by decide, by decide⟩, rfl⟩
theorem test_meets_qcmd_full :
    fullWindow.fatal = false ∧ Accepted (.read .ai 0x0020#16 253#16) ∧ fullWindow.pendBytes ≠ []
      ∧ ¬ FitsPending (.read .ai 0x0020#16 253#16) fullWindow ∧ SubmitBlocked fullWindow
      ∧ SubmitBlocked busySlot ∧ window busySlot ≠ 64 :=
  ⟨rfl, ⟨by decide, by decide, by decide⟩, by decide, by unfold FitsPending; decide, .inl (by decide),
    .inr (by decide +kernel), by decide⟩
theorem test_meets_qcmd_submits :
    fullPending.fatal = false ∧ Accepted (.read .ai 0x0000#16 256#16) ∧ fullPending.pendBytes ≠ []
      ∧ ¬ FitsPending (.read .ai 0x0000#16 256#16) fullPending ∧ ¬ SubmitBlocked fullPending := by
  refine ⟨rfl, ⟨?_, ?_, ?_⟩, ?_, ?_, ?_⟩
  all_goals first | decide +kernel | (unfold FitsPending; decide +kernel) | (unfold SubmitBlocked; decide +kernel)
theorem test_meets_flush :
    stopped.fatal = true ∧ State.reset.fatal = false ∧ State.reset.pendBytes = [] ∧ pendingRead.fatal = false
      ∧ pendingRead.pendBytes ≠ [] ∧ ¬ SubmitBlocked pendingRead ∧ fullWindow.fatal = false
      ∧ fullWindow.pendBytes ≠ [] ∧ SubmitBlocked fullWindow := by
  refine ⟨rfl, rfl, rfl, rfl, by decide, ?_, rfl, by decide, .inl (by decide)⟩
  unfold SubmitBlocked; decide +kernel
theorem test_meets_rdsh :
    16384 < (0x3FFF#16).toNat + (2#16).toNat ∧ (0x3FFF#16).toNat + (1#16).toNat ≤ 16384 := by decide
theorem test_meets_rtsub :
    ([.read .ai 0x0020#16 0#16, .read .ai 0x3FFF#16 2#16] : List Request)
        = [.read .ai 0x0020#16 0#16] ++ .read .ai 0x3FFF#16 2#16 :: []
      ∧ (Request.read .ai 0x0020#16 0#16).len = 0 ∧ (Request.read .ai 0x3FFF#16 2#16).len ≠ 0
      ∧ ¬ Accepted (.read .ai 0x3FFF#16 2#16) ∧ ¬ Accepted (.read .ai 0x0000#16 257#16)
      ∧ 256 < (realtimeRecords [.write .ai 0#16 (List.replicate 200 0x00#8), .write .ai 0#16 (List.replicate 51 0x00#8)]).length
      ∧ (realtimeRecords [.write .ai 0#16 (List.replicate 200 0x00#8), .write .ai 0#16 (List.replicate 50 0x00#8)]).length = 256 := by
  refine ⟨rfl, rfl, by decide, ?_, ?_, by decide +kernel, by decide +kernel⟩ <;> (unfold Accepted; decide)
theorem test_meets_rtsub_accepted :
    Accepted (.write .ai 0#16 (List.replicate 200 0x00#8)) ∧ Accepted (.write .ai 0#16 (List.replicate 51 0x00#8))
      ∧ Accepted (.write .ai 0#16 (List.replicate 50 0x00#8)) := by
  refine ⟨⟨?_, ?_, ?_⟩, ⟨?_, ?_, ?_⟩, ⟨?_, ?_, ?_⟩⟩ <;> decide +kernel
theorem test_meets_illegal_step :
    legalHostWord [0x02#8, 0x00#8] = false
      ∧ ({ State.reset with inputs := [.host [0x02#8, 0x00#8]] } : State).inputs = .host [0x02#8, 0x00#8] :: [] :=
  ⟨by decide +kernel, rfl⟩
theorem test_meets_sync :
    State.reset.fatal = false ∧ State.reset.rxState = .sync ∧ State.reset.rxBuf.length < 3
      ∧ ({ State.reset with rxBuf := [0x00#8, 0xD0#8, 0x00#8] } : State).rxBuf ++ [0x01#8]
        = 0x00#8 :: 0xD0#8 :: 0x00#8 :: 0x01#8 :: []
      ∧ HeaderOk 0xD0#8 0x00#8 0x01#8 ∧ ¬ HeaderOk 0xD0#8 0x01#8 0x01#8 := by
  refine ⟨rfl, rfl, by decide, rfl, ?_, ?_⟩ <;> (unfold HeaderOk; decide)
theorem test_meets_pload :
    let s := { State.reset with rxState := .ploadCrc, rxBuf := [0x00#8, 0xD1#8, 0x00#8, 0x00#8], rxNeed := 2 }
    s.fatal = false ∧ s.rxState = .ploadCrc ∧ s.rxBuf.length + 1 < 4 + s.rxNeed := by decide
theorem test_meets_pload_last :
    let s := inFrame State.reset
    4 + s.rxNeed ≤ s.rxBuf.length + 1
      ∧ (crc ((s.rxBuf ++ [0x64#8]).take 4)).toNat = 256 * ((s.rxBuf ++ [0x64#8]).getD 4 0x00#8).toNat + 0x64
      ∧ (crc ((s.rxBuf ++ [0x65#8]).take 4)).toNat ≠ 256 * ((s.rxBuf ++ [0x65#8]).getD 4 0x00#8).toNat + 0x65 := by
  decide +kernel
theorem test_meets_bad_frame :
    Inv (inFrame oneOut) ∧ (inFrame oneOut).fatal = false ∧ (inFrame oneOut).rxState = .ploadCrc
      ∧ (inFrame oneOut).rxBuf.length + 1 = 4 + (inFrame oneOut).rxNeed
      ∧ candidateGood ((inFrame oneOut).rxBuf ++ [0x65#8]) = false :=
  ⟨inFrame_inv, rfl, rfl, rfl, by decide +kernel⟩
theorem test_meets_timeout :
    StoreOk oneOut ∧ oneOut.fatal = false ∧ window oneOut ≠ 0 ∧ oneOut.retxCount < oneOut.params.maxRetx.toNat
      ∧ StoreOk { oneOut with retxCount := 3 }
      ∧ ({ oneOut with retxCount := 3 } : State).params.maxRetx.toNat ≤ 3 ∧ StoreOk { oneOut with fatal := true } :=
  ⟨oneOut_inv.store, rfl, by decide, by decide, oneOut_inv.store, by decide, oneOut_inv.store⟩
theorem test_meets_ioerr : State.reset.fatal = false ∧ stopped.fatal = true := ⟨rfl, rfl⟩
theorem test_meets_txrt :
    realtimeWaits.fatal = false ∧ realtimeWaits.rtPending = true ∧ State.reset.rtPending = false := ⟨rfl, rfl, rfl⟩
theorem test_meets_status_after_por :
    ParamsOk stopped.params ∧ ParamsOk { stopped.params with crcHealthThreshold := 1#32 } := by
  unfold ParamsOk; decide
theorem test_meets_resets : (∃ t, exec .chrst stopped = .next t) ∧ ∃ t, exec .por stopped = .next t :=
  ⟨⟨_, rfl⟩, _, rfl⟩
theorem test_meets_round_trip : RxReady State.reset ∧ (List.replicate 256 0x00#8).length ≤ 256 :=
  ⟨reset_ready, by decide +kernel⟩
theorem test_meets_one_corrupted :
    RxReady State.reset ∧ window State.reset = 0 ∧ [0x02#8].length ≤ 256
      ∧ [0x00#8, 0xD2#8, 0x01#8, 0x00#8, 0xFD#8, 0x43#8, 0x15#8].length = [0x02#8].length + 6
      ∧ ([0x00#8, 0xD2#8, 0x01#8, 0x00#8, 0xFD#8, 0x43#8, 0x15#8].take 4).drop 1
          = ((encodeFrame 0x00#8 .mailbox false [0x02#8]).take 4).drop 1
      ∧ candidateGood [0x00#8, 0xD2#8, 0x01#8, 0x00#8, 0xFD#8, 0x43#8, 0x15#8] = false
      ∧ ∀ m ∈ ([(0x00#8, [0x01#8]), (0x00#8, [0x03#8])] : List (Byte × List Byte)), m.2.length ≤ 256 := by
  refine ⟨reset_ready, ?_, ?_, ?_, ?_, ?_, ?_⟩ <;> decide +kernel
theorem test_meets_reserved : RxReady State.reset ∧ ¬ HeaderOk 0xD3#8 0x00#8 0x00#8 ∧ ¬ HeaderOk 0xD0#8 0x00#8 0x02#8 := by
  refine ⟨reset_ready, ?_, ?_⟩ <;> (unfold HeaderOk; decide)
theorem test_meets_advance :
    RxReady oneOut ∧ Inv oneOut ∧ [0x01#8, 0x02#8, 0x03#8, 0x04#8].length ≤ 256 ∧ 1 ≤ dist oneOut.sb 0x01#8
      ∧ dist oneOut.sb 0x01#8 ≤ window oneOut :=
  ⟨oneOut_ready, oneOut_inv, by decide, by decide, by decide⟩
theorem test_meets_read_data_ai :
    (oneOut.slot (0x01#8 - 1#8)).reads
      = [{ mode := .ai, addr := 0x0020#14, n := [0x01#8, 0x02#8, 0x03#8, 0x04#8].length }] := by decide +kernel
theorem test_meets_read_data_fifo :
    RxReady oneOutFifo ∧ Inv oneOutFifo ∧ 1 ≤ dist oneOutFifo.sb 0x01#8
      ∧ dist oneOutFifo.sb 0x01#8 ≤ window oneOutFifo
      ∧ (oneOutFifo.slot (0x01#8 - 1#8)).reads
        = [{ mode := .fifo, addr := 0x0010#14, n := [0x07#8, 0x08#8, 0x09#8].length }] :=
  ⟨⟨rfl, rfl, rfl, rfl⟩, oneOutFifo_inv, by decide, by decide, by decide +kernel⟩
theorem test_meets_out_of_order :
    RxReady oneOut ∧ StoreOk oneOut ∧ ([] : List Byte).length ≤ 256 ∧ window oneOut < dist oneOut.sb 0x02#8 :=
  ⟨oneOut_ready, oneOut_inv.store, by decide, by decide⟩
theorem test_meets_latest_realtime :
    ∃ pa pb, State.reset.fatal = false ∧ rtPayload [.write .ai 0x0020#16 [0x01#8, 0x02#8]] = .ok pa ∧ pa.length ≤ 256
      ∧ rtPayload [.write .ai 0x0020#16 [0x03#8, 0x04#8]] = .ok pb ∧ pb.length ≤ 256 :=
  ⟨_, _, rfl, rfl, by decide +kernel, rfl, by decide +kernel⟩
theorem test_meets_realtime_frame : ∃ t, exec (.rtsub []) oneOut = .next t := ⟨_, rfl⟩
theorem test_meets_records :
    State.reset.fatal = false ∧ 256 ≤ 256 ∧ (0x3F00#14).toNat + 256 ≤ 16384 ∧ 16384 < (0x3F01#14).toNat + 256
      ∧ State.reset.pendBytes = [] ∧ stopped.fatal = true
      ∧ (pendingRead.pendBytes.length + 3 ≤ 256 ∧ pendingRead.pendResp + 252 ≤ 256) := by decide +kernel
theorem test_meets_write_records :
    (List.replicate 253 0x00#8).length = 253 ∧ (0x3F03#14).toNat + 253 ≤ 16384 ∧ 16384 < (0x3F04#14).toNat + 253
      ∧ (List.replicate 254 0x00#8).length = 254 ∧ (0x3F02#14).toNat + 254 ≤ 16384
      ∧ pendingRead.pendBytes.length + (3 + 250) ≤ 256 ∧ pendingRead.pendResp ≤ 256 := by decide +kernel
/-- R77, R131: a WRITE record of 254 bytes is well-formed, and fits no frame. -/
theorem test_record_too_large :
    (Instr.writeAi 0x0020#14 (List.replicate 254 0x00#8)).wellFormed = true
      ∧ lastOut (exec (.writeAi 0x0020#14 (List.replicate 254 0x00#8)) State.reset) = some (.result [0x03#8]) := by
  decide +kernel
theorem test_meets_pseudo :
    (∃ t, exec (.qcmd (.write .ai 0x0020#16 [0x01#8])) State.reset = .next t)
      ∧ (∃ t, exec (.qcmd (.read .ai 0x0020#16 4#16)) State.reset = .next t)
      ∧ ∃ t, exec (.rxByte 0xFF#8) State.reset = .next t := ⟨⟨_, rfl⟩, ⟨_, rfl⟩, _, rfl⟩
theorem test_meets_sync_operations :
    State.reset.fatal = false ∧ ¬ SubmitBlocked State.reset ∧ State.reset.pendBytes = []
      ∧ Accepted (.write .ai 0x0080#16 [0x01#8]) ∧ Accepted (.read .ai 0x0020#16 4#16) := by
  refine ⟨rfl, ?_, rfl, ⟨by decide, by decide, by decide⟩, ⟨by decide, by decide, by decide⟩⟩
  unfold SubmitBlocked; decide +kernel

end Sys2Proof.Tests
end

section
/-!
PROOFS. spec/00_scope.md, the laws its statements need: one step, the sequence comparison of R9, and the
status read-out after power-on.
-/

namespace Sys2Proof.Machine

/-! ### What one step can do -/

/-- A step that answers ran one instruction: TXRT with no input waiting, else the decoded oldest input on
the state without it (R60, R255). -/
theorem step_next {s t : State} (h : step s = .next t) :
    (s.inputs = [] ∧ exec .txrt s = .next t)
    ∨ ∃ x rest i, s.inputs = x :: rest ∧ decode x = .ok i ∧ exec i { s with inputs := rest } = .next t := by
  unfold step at h
  split at h
  · next hin => exact .inl ⟨hin, h⟩
  · next x rest hin =>
    split at h
    · next i hdec => exact .inr ⟨x, rest, i, hin, hdec, h⟩
    · cases h

/-! ### Every instruction keeps the invariant -/

theorem finish_inv {x : Except Fault State} (h : ∃ u, x = .ok u ∧ Inv u) : ∃ t, finish x = .next t ∧ Inv t := by
  obtain ⟨u, rfl, hu⟩ := h
  exact ⟨u, rfl, hu⟩

theorem execRdsh_inv (a n : Half) {s : State} (hi : Inv s) : ∃ t, execRdsh a n s = .next t ∧ Inv t := by
  unfold execRdsh
  split
  · exact ⟨_, rfl, hi.answers _⟩
  · exact ⟨_, rfl, hi.answers _⟩

theorem execTimeout_inv {s : State} (hi : Inv s) : ∃ t, execTimeout s = .next t ∧ Inv t := by
  unfold execTimeout
  split
  · exact ⟨s, rfl, hi⟩
  · exact finish_inv (recover_inv .timeout hi)

/-- Under the invariant no instruction stops, and each keeps the invariant: the shared operation an
instruction runs does. -/
theorem exec_inv (i : Instr) {s : State} (hi : Inv s) : ∃ t, exec i s = .next t ∧ Inv t :=
  match i with
  | .qcmd _ | .readFifo _ _ | .readAi _ _ | .writeFifo _ _ | .writeAi _ _ | .wr _ _ | .rd _ _ | .push _ _ =>
    ⟨_, rfl, queueCommand_inv hi⟩
  | .wrsync _ _ | .rdsync _ _ => ⟨_, rfl, flushPending_inv (queueCommand_inv hi)⟩
  | .flush => ⟨_, rfl, flushPending_inv hi⟩
  | .rdsh a n => execRdsh_inv a n hi
  | .rtsub _ => ⟨_, rfl, submitRealtime_inv hi⟩
  | .chrst => ⟨_, rfl, (channelReset_inv hi).answers _⟩
  | .status | .illegal _ => ⟨_, rfl, hi.answers _⟩
  | .rxByte b => finish_inv (receiveByte_inv b hi)
  | .timeout => execTimeout_inv hi
  | .ioerr => ⟨_, rfl, raiseFatal_inv (by decide) hi⟩
  | .txrt => ⟨_, rfl, transmitRealtime_inv hi⟩
  | .por => ⟨_, rfl, powerOnReset_inv hi⟩
  | .frameCmd _ _ | .frameCmdRt _ _ | .frameAck _ _ | .frameMailbox _ _ | .frameRtResult _ _ _
  | .frameReserved _ _ _ _ | .poll _ => finish_inv (receiveBytes_inv _ hi)

theorem exec_next_inv {i : Instr} {s t : State} (hi : Inv s) (h : exec i s = .next t) : Inv t := by
  obtain ⟨u, hu, hiu⟩ := exec_inv i hi
  rw [hu] at h
  cases h
  exact hiu

theorem step_next_inv {s t : State} (hi : Inv s) (h : step s = .next t) : Inv t := by
  rcases step_next h with ⟨-, h⟩ | ⟨x, rest, i, -, -, h⟩
  · exact exec_next_inv hi h
  · exact exec_next_inv (hi.observed rest s.history) h

/-! ### Sequence arithmetic (R9) -/

theorem before_iff_toInt (a b : Byte) : before a b = true ↔ 0 < (b - a).toInt := decide_eq_true_iff

/-- The signed difference is positive at the distances whose top bit is clear, 0 left out. -/
theorem before_iff_dist (a b : Byte) : before a b = true ↔ 1 ≤ dist a b ∧ dist a b ≤ 127 := by
  have hlt := dist_lt a b
  rw [before_iff_toInt, BitVec.toInt_eq_toNat_cond, ← dist]
  split <;> omega

/-! ### STATUS after power-on (R34, R232, R280) -/

/-- R34 with R6: a threshold of at least 1 is above the counter's power-on value. -/
theorem linkDegraded_powerOnReset {s : State} (h : ParamsOk s.params) : linkDegraded (powerOnReset s) = false := by
  have hc : (powerOnReset s).crcErrors = 0#32 := rfl
  unfold ParamsOk at h
  rw [linkDegraded, powerOnReset_params, hc, decide_eq_false_iff_not, BitVec.le_def]
  simp only [BitVec.toNat_zero]
  omega

theorem statusFlags_powerOnReset {s : State} (h : ParamsOk s.params) : statusFlags (powerOnReset s) = 0x00#8 := by
  rw [statusFlags, linkDegraded_powerOnReset h]
  simp [powerOnReset, channelReset, flagBit]

theorem statusBytes_powerOnReset {s : State} (h : ParamsOk s.params) :
    statusBytes (powerOnReset s) = List.replicate 16 0x00#8 := by
  rw [statusBytes, statusFlags_powerOnReset h]
  simp [powerOnReset, channelReset, window, Config.initSeq, causeByte, be16, be32, List.replicate]

end Sys2Proof.Machine
end

section
/-!
PROOFS. spec/00_scope.md, its obligations.
-/

namespace Sys2Proof.Proofs

open Sys2Proof.Machine

/-- Settles O13: a step runs one instruction, and every instruction keeps the invariant. -/
theorem everyStepKeepsTheInvariant : Obligations.EveryStepKeepsTheInvariant :=
  fun _ _ hi h => step_next_inv hi h

/-- Settles O8, from the distance as a number and the signed comparison as a range of distances. -/
theorem sequenceArithmeticIsModulo256 : Obligations.SequenceArithmeticIsModulo256 := by
  intro a b k s
  refine ⟨?_, dist_eq a b, before_iff_toInt a b, before_iff_dist a b, dist_eq s.sb s.sm⟩
  rw [BitVec.toNat_add, BitVec.toNat_ofNat, Nat.add_mod_mod]

/-- Settles O57: sixteen zero status bytes, the flag byte by the threshold's range. -/
theorem statusAfterPowerOnIsAllZero : Obligations.StatusAfterPowerOnIsAllZero := by
  intro s hp
  refine ⟨powerOnReset s, rfl, ?_⟩
  rw [← statusBytes_powerOnReset hp]
  rfl

end Sys2Proof.Proofs
end

section
/-!
PROOFS. spec/10_state.md, the laws its statements need: what every operation but POR keeps of the state's
observed side (the output history, the parameters, the waiting inputs) and of the CRC-error counter.
-/

namespace Sys2Proof.Machine

/-- `t` continues `s`: its history is that of `s` with outputs behind it (R41, R257), the parameters and the
waiting inputs are the same, and no CRC error is forgotten (R33). -/
structure Continues (s t : State) : Prop where
  history : s.history <+: t.history
  params : t.params = s.params
  inputs : t.inputs = s.inputs
  crcErrors : s.crcErrors.toNat ≤ t.crcErrors.toNat

theorem Continues.refl (s : State) : Continues s s := ⟨List.prefix_rfl, rfl, rfl, le_rfl⟩

theorem Continues.trans {s t u : State} (h : Continues s t) (h' : Continues t u) : Continues s u :=
  ⟨h.history.trans h'.history, h'.params.trans h.params, h'.inputs.trans h.inputs,
    h.crcErrors.trans h'.crcErrors⟩

theorem continues_answers (s : State) (os : List Output) : Continues s (s.answers os) :=
  ⟨List.prefix_append _ _, rfl, rfl, le_rfl⟩

theorem Continues.answers {s t : State} (h : Continues s t) (os : List Output) : Continues s (t.answers os) :=
  h.trans (continues_answers t os)

/-! ### The batcher and the realtime slot -/

theorem submit_continues {p : List Byte} {reads : List ReadRec} {s t : State} {q : Byte}
    (h : submit p reads s = some (q, t)) : Continues s t := by
  obtain ⟨-, -, -, rfl⟩ := submit_eq_some h
  exact ⟨List.prefix_append _ _, rfl, rfl, le_rfl⟩

theorem clearPending_continues (s : State) : Continues s s.clearPending :=
  ⟨List.prefix_rfl, rfl, rfl, le_rfl⟩

theorem appendRecord_continues (r : Request) (s : State) : Continues s (appendRecord r s) :=
  ⟨List.prefix_rfl, rfl, rfl, le_rfl⟩

theorem queueCommand_continues (r : Request) (s : State) : Continues s (queueCommand r s) := by
  rcases queueCommand_cases r s with ⟨-, h⟩ | ⟨-, -, h⟩ | ⟨-, -, -, h⟩ | ⟨-, -, -, h⟩ | ⟨-, -, -, -, -, h⟩
    | ⟨-, -, -, -, q, u, hu, h⟩ <;> rw [h]
  · exact continues_answers s _
  · exact continues_answers s _
  · exact continues_answers s _
  · exact (appendRecord_continues r s).answers _
  · exact continues_answers s _
  · exact (((submit_continues hu).trans (clearPending_continues u)).trans
      (appendRecord_continues r _)).answers _

theorem flushPending_continues (s : State) : Continues s (flushPending s) := by
  rcases flushPending_cases s with ⟨-, h⟩ | ⟨-, -, h⟩ | ⟨-, -, -, h⟩ | ⟨-, -, q, u, hu, h⟩ <;> rw [h]
  · exact continues_answers s _
  · exact continues_answers s _
  · exact continues_answers s _
  · exact ((submit_continues hu).trans (clearPending_continues u)).answers _

theorem submitRealtime_continues (rs : List Request) (s : State) : Continues s (submitRealtime rs s) := by
  rcases submitRealtime_cases rs s with ⟨-, h⟩ | ⟨-, c, -, h⟩ | ⟨-, p, -, -, h⟩ | ⟨-, p, -, -, h⟩ <;> rw [h]
  · exact continues_answers s _
  · exact continues_answers s _
  · exact continues_answers s _
  · exact ⟨List.prefix_append _ _, rfl, rfl, le_rfl⟩

theorem transmitRealtime_continues (s : State) : Continues s (transmitRealtime s) := by
  rcases transmitRealtime_cases s with ⟨-, h⟩ | ⟨-, -, h⟩ <;> rw [h]
  · exact .refl s
  · exact ⟨List.prefix_append _ _, rfl, rfl, le_rfl⟩

/-! ### FATAL, recovery and acknowledgement -/

theorem raiseFatal_continues (c : FatalCause) (s : State) : Continues s (raiseFatal c s) := by
  unfold raiseFatal
  split
  · exact .refl s
  · exact ⟨List.prefix_append _ _, rfl, rfl, le_rfl⟩

theorem recovered_continues (c : FatalCause) (s : State) : Continues s (s.recovered c) := by
  unfold State.recovered
  split
  · exact .refl s
  · split
    · exact ⟨List.prefix_append _ _, rfl, rfl, le_rfl⟩
    · exact ⟨List.prefix_append _ _, rfl, rfl, le_rfl⟩

theorem recover_continues {t : Trigger} {s u : State} (h : recover t s = .ok u) : Continues s u := by
  rw [recover_ok h]
  exact recovered_continues _ s

theorem withRn_continues (s : State) (r : Byte) : Continues s { s with rn := r } :=
  ⟨List.prefix_rfl, rfl, rfl, le_rfl⟩

theorem onAck_continues {r : Byte} {s t : State} (h : onAck r s = .ok t) : Continues s t := by
  rcases onAck_ok h with ⟨-, rfl⟩ | ⟨-, rfl⟩ | ⟨-, -, rfl⟩
  · exact (withRn_continues s r).trans (recovered_continues _ _)
  · exact withRn_continues s r
  · constructor <;> simp

/-! ### The receive path -/

theorem ackIn_continues {r : Byte} {p : List Byte} {s t : State} (h : ackIn r p s = .ok t) : Continues s t := by
  obtain ⟨m, -, h, -⟩ := ackIn_ok h
  have hm : Continues s { s with shadow := m } := ⟨List.prefix_rfl, rfl, rfl, le_rfl⟩
  exact hm.trans (onAck_continues h)

theorem dispatch_continues {seq tag : Byte} {rt : Bool} {p : List Byte} {s t : State}
    (h : dispatch seq tag rt p s = .ok t) : Continues s t := by
  rcases dispatch_ok h with ⟨e, -, rfl⟩ | rfl | ⟨-, -, h⟩
  · exact continues_answers s _
  · exact .refl t
  · exact ackIn_continues h

/-- The saturating count never falls (R110, R10). -/
theorem le_crcCountUp (c : Count) : c.toNat ≤ (crcCountUp c).toNat := by
  unfold crcCountUp
  split
  · next h =>
    have hc : c.toNat < 0xFFFFFFFF := h
    rw [BitVec.toNat_add, BitVec.toNat_ofNat]
    omega
  · exact le_rfl

theorem frameBad_continues {s t : State} (h : frameBad s = .ok t) : Continues s t := by
  have hc : Continues s ({ s with crcErrors := crcCountUp s.crcErrors }.emit (.crcError (crcCountUp s.crcErrors))) :=
    ⟨List.prefix_append _ _, rfl, rfl, le_crcCountUp s.crcErrors⟩
  exact hc.trans (recover_continues h)

theorem rxIdle_continues (s : State) : Continues s s.rxIdle :=
  ⟨List.prefix_rfl, rfl, rfl, le_rfl⟩

theorem receiveByte_continues {b : Byte} {s t : State} (h : receiveByte b s = .ok t) : Continues s t := by
  rcases receiveByte_ok h with ⟨-, rfl⟩ | ⟨-, h⟩ | ⟨-, seq, tag, rt, p, h⟩ | ⟨-, h⟩
  · exact .refl t
  · rw [h]
    exact ⟨List.prefix_rfl, rfl, rfl, le_rfl⟩
  · exact (rxIdle_continues s).trans (dispatch_continues h)
  · exact (rxIdle_continues s).trans (frameBad_continues h)

theorem receiveBytes_continues {bs : List Byte} {s t : State} (h : receiveBytes bs s = .ok t) : Continues s t :=
  receiveBytes_keeps (P := Continues s) (fun _ _ _ hs hb => hs.trans (receiveByte_continues hb)) (.refl s) h

/-! ### Every instruction but POR -/

theorem channelReset_continues (s : State) : Continues s (channelReset s) :=
  ⟨List.prefix_rfl, rfl, rfl, le_rfl⟩

theorem finish_eq_next {x : Except Fault State} {t : State} (h : finish x = .next t) : x = .ok t := by
  cases x with
  | ok u => cases h; rfl
  | error e => cases h

theorem next_continues {s u t : State} (hu : Continues s u)
    (h : (.next u : Host.Outcome State Fault Refusal) = .next t) : Continues s t := by
  cases h
  exact hu

theorem execRdsh_continues {a n : Half} {s t : State} (h : execRdsh a n s = .next t) : Continues s t := by
  unfold execRdsh at h
  split at h
  · exact next_continues (continues_answers s _) h
  · exact next_continues (continues_answers s _) h

theorem execTimeout_continues {s t : State} (h : execTimeout s = .next t) : Continues s t := by
  unfold execTimeout at h
  split at h
  · exact next_continues (.refl s) h
  · exact recover_continues (finish_eq_next h)

/-- Every instruction but POR continues the state it runs on: the shared operation it runs does. -/
theorem exec_continues {i : Instr} {s t : State} (hne : i ≠ .por) (h : exec i s = .next t) : Continues s t :=
  match i with
  | .qcmd _ | .readFifo _ _ | .readAi _ _ | .writeFifo _ _ | .writeAi _ _ | .wr _ _ | .rd _ _ | .push _ _ =>
    next_continues (queueCommand_continues _ s) h
  | .wrsync _ _ | .rdsync _ _ =>
    next_continues ((queueCommand_continues _ s).trans (flushPending_continues _)) h
  | .flush => next_continues (flushPending_continues s) h
  | .rdsh _ _ => execRdsh_continues h
  | .rtsub _ => next_continues (submitRealtime_continues _ s) h
  | .chrst => next_continues ((channelReset_continues s).answers _) h
  | .status | .illegal _ => next_continues (continues_answers s _) h
  | .rxByte _ => receiveByte_continues (finish_eq_next h)
  | .timeout => execTimeout_continues h
  | .ioerr => next_continues (raiseFatal_continues _ s) h
  | .txrt => next_continues (transmitRealtime_continues s) h
  | .por => absurd rfl hne
  | .frameCmd _ _ | .frameCmdRt _ _ | .frameAck _ _ | .frameMailbox _ _ | .frameRtResult _ _ _
  | .frameReserved _ _ _ _ | .poll _ => receiveBytes_continues (finish_eq_next h)

/-! ### The state after reset -/

theorem reset_slot_free (k : Fin Config.storeSize) : State.reset.store[k].occupied = false := by
  simp [State.reset, emptySlot]

/-- R40's POR column meets the invariant: nothing is outstanding, queued or being received. -/
theorem reset_inv : Inv State.reset where
  window := (by decide : dist 0x00#8 0x00#8 ≤ 64)
  sn := rfl
  store := by
    refine ⟨fun q hq => ?_, fun k hk => ?_⟩
    · exact absurd ((outstanding_iff _ _).mp hq) (Nat.not_lt_zero _)
    · rw [reset_slot_free k] at hk; cases hk
  slots := fun k hk => by rw [reset_slot_free k] at hk; cases hk
  pending := ⟨Nat.zero_le _, Nat.zero_le _, rfl, readsOk_nil, fun _ => ⟨rfl, rfl⟩⟩
  realtime := fun h => nomatch h
  deframer := ⟨Nat.zero_le _, rfl⟩
  retx := Nat.zero_le _
  cause := ⟨fun _ => rfl, fun _ => rfl⟩
  shadow := State.reset_shadow_wf
  params := (by decide : 1 ≤ Params.ofVectors.crcHealthThreshold.toNat)

end Sys2Proof.Machine
end

section
/-!
PROOFS. spec/10_state.md, its obligations.
-/

namespace Sys2Proof.Proofs

open Sys2Proof.Machine

/-- Settles O14: under the invariant the shared operation each instruction runs does not stop. -/
theorem everyInstructionCompletesUnderTheInvariant : Obligations.EveryInstructionCompletesUnderTheInvariant :=
  fun _ i hi => exec_inv i hi

/-- Settles O18: POR emits nothing, and every other instruction continues the state it runs on. -/
theorem historyGrowsAndParametersStay : Obligations.HistoryGrowsAndParametersStay := by
  intro s t i h
  by_cases hi : i = .por
  · subst hi
    cases h
    exact ⟨⟨[], by simp⟩, rfl, rfl⟩
  · have hc := exec_continues hi h
    obtain ⟨os, hos⟩ := hc.history
    exact ⟨⟨os, hos.symm⟩, hc.params, hc.inputs⟩

/-- Settles O19: an instruction that continues its state forgets no CRC error. -/
theorem onlyPowerOnLowersTheCrcCounter : Obligations.OnlyPowerOnLowersTheCrcCounter :=
  fun _ _ _ hi h => (exec_continues hi h).crcErrors

/-- Settles O12, field by field of the invariant. -/
theorem resetMeetsTheInvariant : Obligations.ResetMeetsTheInvariant := reset_inv

end Sys2Proof.Proofs
end

section
/-!
PROOFS. spec/20_memory.md, the laws its statements need: which input a step runs, and what each instruction
does to the two memories of the block, the frame store (R26, R65) and the register shadow (R50, R51).
-/

namespace Sys2Proof.Machine

/-! ### The step -/

/-- The step of a waiting input that decodes (R60, R255). -/
theorem step_of_decode {s : State} {x : Input} {rest : List Input} {i : Instr} (hin : s.inputs = x :: rest)
    (hdec : decode x = .ok i) : step s = exec i { s with inputs := rest } := by
  simp only [step, hin, hdec]

/-- The step with no input waiting. -/
theorem step_idle {s : State} (hin : s.inputs = []) : step s = exec .txrt s := by
  simp only [step, hin]

/-! ### Two ways to treat the memories -/

/-- What the host's operations, TIMEOUT, IOERR and TXRT do to the memories: an occupied slot keeps its
contents and the shadow is untouched. Free slots may take a frame (R161). -/
structure KeepsMemory (s t : State) : Prop where
  slots : ∀ k : Fin Config.storeSize, s.store[k].occupied = true → t.store[k] = s.store[k]
  shadow : t.shadow = s.shadow

/-- What acknowledgements and resets do to the frame store: slots are freed and none is filled, so a slot
that is occupied afterwards is as it was. -/
def FillsNoSlot (s t : State) : Prop :=
  ∀ k : Fin Config.storeSize, t.store[k].occupied = true → t.store[k] = s.store[k]

theorem keepsMemory_of_eq {s t : State} (hst : t.store = s.store) (hsh : t.shadow = s.shadow) : KeepsMemory s t :=
  ⟨fun _ _ => by rw [hst], hsh⟩

theorem keepsMemory_answers (s : State) (os : List Output) : KeepsMemory s (s.answers os) :=
  keepsMemory_of_eq rfl rfl

theorem KeepsMemory.trans {s t u : State} (h : KeepsMemory s t) (h' : KeepsMemory t u) : KeepsMemory s u where
  slots k hk := by
    have ht := h.slots k hk
    rw [h'.slots k (by rw [ht]; exact hk), ht]
  shadow := h'.shadow.trans h.shadow

theorem KeepsMemory.answers {s t : State} (h : KeepsMemory s t) (os : List Output) : KeepsMemory s (t.answers os) :=
  h.trans (keepsMemory_answers t os)

theorem fillsNoSlot_of_store_eq {s t : State} (hst : t.store = s.store) : FillsNoSlot s t :=
  fun _ _ => by rw [hst]

theorem fillsNoSlot_of_free {s t : State} (hfree : ∀ k : Fin Config.storeSize, t.store[k].occupied = false) :
    FillsNoSlot s t := by
  intro k hk
  rw [hfree k] at hk
  cases hk

theorem FillsNoSlot.trans {s t u : State} (h : FillsNoSlot s t) (h' : FillsNoSlot t u) : FillsNoSlot s u := by
  intro k hk
  have hu := h' k hk
  rw [hu, h k (by rw [← hu]; exact hk)]

/-! ### The batcher and the realtime slot -/

/-- SUBMIT fills a free slot (R163), so it changes no occupied one. -/
theorem submit_keepsMemory {p : List Byte} {reads : List ReadRec} {s t : State} {q : Byte}
    (h : submit p reads s = some (q, t)) : KeepsMemory s t := by
  obtain ⟨-, hfree, -, rfl⟩ := submit_eq_some h
  refine ⟨fun k hk => ?_, rfl⟩
  have hne : k ≠ slotIndex s.sm := by
    rintro rfl
    rw [State.slot, hk] at hfree
    cases hfree
  exact (State.store_setSlot s s.sm k _).trans (if_neg hne)

theorem queueCommand_keepsMemory (r : Request) (s : State) : KeepsMemory s (queueCommand r s) := by
  rcases queueCommand_cases r s with ⟨-, h⟩ | ⟨-, -, h⟩ | ⟨-, -, -, h⟩ | ⟨-, -, -, h⟩ | ⟨-, -, -, -, -, h⟩
    | ⟨-, -, -, -, q, u, hu, h⟩ <;> rw [h]
  · exact keepsMemory_answers s _
  · exact keepsMemory_answers s _
  · exact keepsMemory_answers s _
  · exact keepsMemory_of_eq rfl rfl
  · exact keepsMemory_answers s _
  · exact (submit_keepsMemory hu).trans (keepsMemory_of_eq rfl rfl)

theorem flushPending_keepsMemory (s : State) : KeepsMemory s (flushPending s) := by
  rcases flushPending_cases s with ⟨-, h⟩ | ⟨-, -, h⟩ | ⟨-, -, -, h⟩ | ⟨-, -, q, u, hu, h⟩ <;> rw [h]
  · exact keepsMemory_answers s _
  · exact keepsMemory_answers s _
  · exact keepsMemory_answers s _
  · exact (submit_keepsMemory hu).trans (keepsMemory_of_eq rfl rfl)

theorem submitRealtime_keepsMemory (rs : List Request) (s : State) : KeepsMemory s (submitRealtime rs s) := by
  rcases submitRealtime_cases rs s with ⟨-, h⟩ | ⟨-, c, -, h⟩ | ⟨-, p, -, -, h⟩ | ⟨-, p, -, -, h⟩ <;> rw [h]
  · exact keepsMemory_answers s _
  · exact keepsMemory_answers s _
  · exact keepsMemory_answers s _
  · exact keepsMemory_of_eq rfl rfl

theorem transmitRealtime_keepsMemory (s : State) : KeepsMemory s (transmitRealtime s) := by
  rcases transmitRealtime_cases s with ⟨-, h⟩ | ⟨-, -, h⟩ <;> rw [h] <;> exact keepsMemory_of_eq rfl rfl

/-! ### FATAL and recovery -/

theorem raiseFatal_keepsMemory (c : FatalCause) (s : State) : KeepsMemory s (raiseFatal c s) := by
  unfold raiseFatal
  split <;> exact keepsMemory_of_eq rfl rfl

@[simp] theorem recovered_store (c : FatalCause) (s : State) : (s.recovered c).store = s.store := by
  unfold State.recovered
  split
  · rfl
  · split <;> rfl

@[simp] theorem recovered_shadow (c : FatalCause) (s : State) : (s.recovered c).shadow = s.shadow := by
  unfold State.recovered
  split
  · rfl
  · split <;> rfl

theorem recover_store {t : Trigger} {s u : State} (h : recover t s = .ok u) : u.store = s.store := by
  rw [recover_ok h, recovered_store]

theorem recover_keepsMemory {t : Trigger} {s u : State} (h : recover t s = .ok u) : KeepsMemory s u :=
  keepsMemory_of_eq (recover_store h) (by rw [recover_ok h, recovered_shadow])

/-! ### The receive path -/

/-- A bad frame is counted and recovered from (R110): the store stays. -/
theorem frameBad_store {s t : State} (h : frameBad s = .ok t) : t.store = s.store := by
  unfold frameBad at h
  simp [recover_store h]

/-- An advancing acknowledgement frees slots (R165); any other leaves the store alone. -/
theorem onAck_fillsNoSlot {r : Byte} {s t : State} (h : onAck r s = .ok t) : FillsNoSlot s t := by
  rcases onAck_ok h with ⟨-, rfl⟩ | ⟨-, rfl⟩ | ⟨-, -, rfl⟩
  · exact fillsNoSlot_of_store_eq (recovered_store _ _)
  · exact fillsNoSlot_of_store_eq rfl
  · intro k hk
    rcases freeSlots_store_or (dist s.sb r) s.sb { s with rn := r } k with hkeep | hfreed
    · exact hkeep
    · change ((freeSlots _ _ _).store[k]).occupied = true at hk
      rw [hfreed] at hk
      cases hk

theorem ackIn_fillsNoSlot {r : Byte} {p : List Byte} {s t : State} (h : ackIn r p s = .ok t) : FillsNoSlot s t := by
  obtain ⟨m, -, h, -⟩ := ackIn_ok h
  have hm : FillsNoSlot s { s with shadow := m } := fillsNoSlot_of_store_eq rfl
  exact hm.trans (onAck_fillsNoSlot h)

theorem dispatch_fillsNoSlot {seq tag : Byte} {rt : Bool} {p : List Byte} {s t : State}
    (h : dispatch seq tag rt p s = .ok t) : FillsNoSlot s t := by
  rcases dispatch_ok h with ⟨e, -, rfl⟩ | rfl | ⟨-, -, h⟩
  · exact fillsNoSlot_of_store_eq rfl
  · exact fillsNoSlot_of_store_eq rfl
  · exact ackIn_fillsNoSlot h

theorem receiveByte_fillsNoSlot {b : Byte} {s t : State} (h : receiveByte b s = .ok t) : FillsNoSlot s t := by
  rcases receiveByte_ok h with ⟨-, rfl⟩ | ⟨-, h⟩ | ⟨-, seq, tag, rt, p, h⟩ | ⟨-, h⟩
  · exact fillsNoSlot_of_store_eq rfl
  · exact fillsNoSlot_of_store_eq (by rw [h])
  · exact dispatch_fillsNoSlot (s := s.rxIdle) h
  · exact fillsNoSlot_of_store_eq (frameBad_store (s := s.rxIdle) h)

theorem receiveBytes_fillsNoSlot {bs : List Byte} {s t : State} (h : receiveBytes bs s = .ok t) : FillsNoSlot s t :=
  receiveBytes_keeps (P := FillsNoSlot s) (fun _ _ _ hs hb => hs.trans (receiveByte_fillsNoSlot hb))
    (fillsNoSlot_of_store_eq rfl) h

/-! ### The resets -/

/-- Both resets free every slot (R231, R280). -/
theorem channelReset_slot_free (s : State) (k : Fin Config.storeSize) : (channelReset s).store[k].occupied = false := by
  simp [channelReset]

/-! ### Every instruction -/

theorem execRdsh_keepsMemory {a n : Half} {s t : State} (h : execRdsh a n s = .next t) : KeepsMemory s t := by
  unfold execRdsh at h
  split at h <;> cases h <;> exact keepsMemory_answers s _

theorem execTimeout_keepsMemory {s t : State} (h : execTimeout s = .next t) : KeepsMemory s t := by
  unfold execTimeout at h
  split at h
  · cases h
    exact keepsMemory_of_eq rfl rfl
  · exact recover_keepsMemory (finish_eq_next h)

theorem next_keepsMemory {s u t : State} (hu : KeepsMemory s u)
    (h : (.next u : Host.Outcome State Fault Refusal) = .next t) : KeepsMemory s t := by
  cases h
  exact hu

/-- The instructions that may write the shadow: POR (R280) and those that bring received bytes (R214). -/
def WritesShadow : Instr → Prop
  | .por | .rxByte _ | .poll _ | .frameCmd _ _ | .frameCmdRt _ _ | .frameAck _ _ | .frameMailbox _ _
  | .frameRtResult _ _ _ | .frameReserved _ _ _ _ => True
  | _ => False

/-- An instruction that answers keeps both memories, or it is a reset or brings received bytes and fills no
slot. Of the second kind CHRST alone is no writer of the shadow, and it keeps it (R231). -/
theorem exec_memory {i : Instr} {s t : State} (h : exec i s = .next t) :
    KeepsMemory s t ∨ FillsNoSlot s t ∧ (t.shadow = s.shadow ∨ WritesShadow i) :=
  match i with
  | .qcmd _ | .readFifo _ _ | .readAi _ _ | .writeFifo _ _ | .writeAi _ _ | .wr _ _ | .rd _ _ | .push _ _ =>
    .inl (next_keepsMemory (queueCommand_keepsMemory _ s) h)
  | .wrsync _ _ | .rdsync _ _ =>
    .inl (next_keepsMemory ((queueCommand_keepsMemory _ s).trans (flushPending_keepsMemory _)) h)
  | .flush => .inl (next_keepsMemory (flushPending_keepsMemory s) h)
  | .rdsh _ _ => .inl (execRdsh_keepsMemory h)
  | .rtsub _ => .inl (next_keepsMemory (submitRealtime_keepsMemory _ s) h)
  | .status | .illegal _ => .inl (next_keepsMemory (keepsMemory_answers s _) h)
  | .timeout => .inl (execTimeout_keepsMemory h)
  | .ioerr => .inl (next_keepsMemory (raiseFatal_keepsMemory _ s) h)
  | .txrt => .inl (next_keepsMemory (transmitRealtime_keepsMemory s) h)
  | .chrst => by
    cases h
    exact .inr ⟨fillsNoSlot_of_free (channelReset_slot_free s), .inl rfl⟩
  | .por => by
    cases h
    exact .inr ⟨fillsNoSlot_of_free (channelReset_slot_free _), .inr trivial⟩
  | .rxByte _ => .inr ⟨receiveByte_fillsNoSlot (finish_eq_next h), .inr trivial⟩
  | .frameCmd _ _ | .frameCmdRt _ _ | .frameAck _ _ | .frameMailbox _ _ | .frameRtResult _ _ _
  | .frameReserved _ _ _ _ | .poll _ => .inr ⟨receiveBytes_fillsNoSlot (finish_eq_next h), .inr trivial⟩

/-- Only POR and received bytes write the shadow (R51, R137). -/
theorem exec_shadow {i : Instr} {s t : State} (h : exec i s = .next t) : t.shadow = s.shadow ∨ WritesShadow i := by
  rcases exec_memory h with hkeep | ⟨-, hor⟩
  · exact .inl hkeep.shadow
  · exact hor

end Sys2Proof.Machine
end

section
/-!
PROOFS. spec/20_memory.md, its obligations.
-/

namespace Sys2Proof.Proofs

open Sys2Proof.Machine

/-- Settles O17: an instruction keeps the slots that were occupied, or fills none. -/
theorem submittedFramesAreImmutable : Obligations.SubmittedFramesAreImmutable := by
  intro s t i k h hbefore hafter
  rcases exec_memory h with hkeep | ⟨hfill, -⟩
  · exact hkeep.slots k hbefore
  · exact hfill k hafter

/-- Settles O20: an address that reads differently belongs to a shadow that was written. -/
theorem shadowIsWrittenOnlyByReceivedBytesAndPowerOn :
    Obligations.ShadowIsWrittenOnlyByReceivedBytesAndPowerOn := by
  intro s t i a h hne
  rcases exec_shadow h with hsame | hwriter
  · exact absurd (by rw [hsame]) hne
  · exact hwriter

/-- Settles O10, from the step's two cases. -/
theorem stepRunsTheDecodedInstruction : Obligations.StepRunsTheDecodedInstruction :=
  ⟨fun _ _ _ _ hin hdec => step_of_decode hin hdec, fun _ hin => step_idle hin⟩

end Sys2Proof.Proofs
end

section
/-!
PROOFS. spec/30_encoding.md, the laws its statements need: the decoder on what the encoder lays out and the
well-formedness of its answers, the refusals of a step, four bytes that are no header, and the cases of QCMD and
FLUSH that the command records and the pseudo-operations run.
-/

namespace Sys2Proof

open Machine

/-! ### Selecting bits (R75, R83) -/

theorem writeOfByte_selector (w : Bool) (m : Mode) (h : BitVec 6) :
    writeOfByte (writeBit w ||| modeBits m ||| h.setWidth 8) = w := by
  cases w <;> cases m <;> simp [writeOfByte, writeBit, modeBits]

theorem modeOfByte_selector (w : Bool) (m : Mode) (h : BitVec 6) :
    modeOfByte (writeBit w ||| modeBits m ||| h.setWidth 8) = m := by
  cases w <;> cases m <;> simp [modeOfByte, writeBit, modeBits]

theorem lowBits_selector (w : Bool) (m : Mode) (h : BitVec 6) :
    (writeBit w ||| modeBits m ||| h.setWidth 8).extractLsb' 0 6 = h := by
  cases w <;> cases m <;> revert h <;> decide

/-- An opm byte is the selecting byte of a record with address bits 13:8 clear (R83). -/
theorem opm_eq_selector (w : Bool) (m : Mode) :
    writeBit w ||| modeBits m = writeBit w ||| modeBits m ||| (0#6).setWidth 8 := by
  simp

theorem writeOfByte_opm (w : Bool) (m : Mode) : writeOfByte (writeBit w ||| modeBits m) = w := by
  rw [opm_eq_selector, writeOfByte_selector]

theorem modeOfByte_opm (w : Bool) (m : Mode) : modeOfByte (writeBit w ||| modeBits m) = m := by
  rw [opm_eq_selector, modeOfByte_selector]

theorem lowBits_opm (w : Bool) (m : Mode) : (writeBit w ||| modeBits m).extractLsb' 0 6 = 0#6 := by
  rw [opm_eq_selector, lowBits_selector]

theorem writeOfByte_iff (b : Byte) : writeOfByte b = true ↔ 128 ≤ b.toNat := by
  revert b; decide +kernel

/-! ### Record requests of host words (R83, R86) -/

/-- The parser undoes the encoding of one request, whatever bytes stand behind it (R83, R86). -/
theorem parseRequest_requestBytes {r : Request} (hr : r.wellFormed = true) (rest : List Byte) :
    parseRequest (requestBytes r ++ rest) = some (r, rest) := by
  cases r with
  | read m a n =>
    simp [requestBytes, be16, parseRequest, lowBits_opm, writeOfByte_opm, modeOfByte_opm, half_be16,
      Request.isWrite, Request.mode, Request.addr, Request.len, Request.data]
  | write m a d =>
    have hd : d.length < 65536 := by simpa [Request.wellFormed] using hr
    simp [requestBytes, be16, parseRequest, lowBits_opm, writeOfByte_opm, modeOfByte_opm, half_be16,
      Request.isWrite, Request.mode, Request.addr, Request.len, Request.data, Nat.mod_eq_of_lt hd]

theorem parseRequests_succ (k : Nat) (bs : List Byte) :
    parseRequests (k + 1) bs
      = (parseRequest bs).bind fun x => (parseRequests k x.2).map (x.1 :: ·) := by
  rw [parseRequests]
  rcases parseRequest bs with - | ⟨r, rest⟩
  · rfl
  · rcases h : parseRequests k rest with - | rs <;> simp [h]

theorem parseRequests_requestBytes {rs : List Request} (hrs : ∀ r ∈ rs, r.wellFormed = true) :
    parseRequests rs.length (rs.flatMap requestBytes) = some rs := by
  induction rs with
  | nil => rfl
  | cons r rs ih =>
    obtain ⟨hr, hrs⟩ := List.forall_mem_cons.mp hrs
    rw [List.flatMap_cons, List.length_cons, parseRequests_succ, parseRequest_requestBytes hr, Option.bind_some, ih hrs]
    rfl

/-- A parsed WRITE took at most as many data bytes as its 16-bit length field can say. -/
theorem parseRequest_wellFormed {bs rest : List Byte} {r : Request} (h : parseRequest bs = some (r, rest)) :
    r.wellFormed = true := by
  unfold parseRequest at h
  split at h
  · next opm a1 a0 n1 n0 tail =>
    split at h
    · split at h
      · split at h
        · cases h
          have hlen : (tail.take (half n1 n0).toNat).length < 65536 :=
            (List.length_take_le _ _).trans_lt (half n1 n0).isLt
          exact decide_eq_true hlen
        · cases h
      · cases h
        rfl
    · cases h
  · cases h

theorem parseRequests_wellFormed {k : Nat} {bs : List Byte} {rs : List Request} (h : parseRequests k bs = some rs) :
    rs.length = k ∧ ∀ r ∈ rs, r.wellFormed = true := by
  induction k generalizing bs rs with
  | zero =>
    cases bs with
    | nil => cases h; simp
    | cons b bs => cases h
  | succ k ih =>
    rw [parseRequests_succ] at h
    obtain ⟨⟨r, rest⟩, hr, h⟩ := Option.bind_eq_some_iff.mp h
    obtain ⟨rs, hrs, rfl⟩ := Option.map_eq_some_iff.mp h
    obtain ⟨hlen, hall⟩ := ih hrs
    exact ⟨by simp [hlen], List.forall_mem_cons.mpr ⟨parseRequest_wellFormed hr, hall⟩⟩

theorem half_toNat (hi lo : Byte) : (half hi lo).toNat = 256 * hi.toNat + lo.toNat := by
  rw [half, BitVec.toNat_append, ← Nat.shiftLeft_add_eq_or_of_lt lo.isLt, Nat.shiftLeft_eq]
  omega

/-- The data bytes a request's header announces: its 16-bit length when W = 1 (R83). -/
theorem dataLen_eq (opm n1 n0 : Byte) :
    dataLen opm n1 n0 = if writeOfByte opm then (half n1 n0).toNat else 0 := by
  rw [dataLen, half_toNat, writeOfByte]

/-- The legality test of R83 goes request by request, as the parser does. -/
theorem requestsExact_succ (k : Nat) (bs : List Byte) :
    requestsExact (k + 1) bs = (parseRequest bs).any fun x => requestsExact k x.2 := by
  unfold parseRequest
  split
  · next opm a1 a0 n1 n0 rest =>
    rw [requestsExact, dataLen_eq, opmOk]
    by_cases hopm : opm.extractLsb' 0 6 = 0#6
    · rcases hw : writeOfByte opm
      · simp [hopm]
      · by_cases hlen : (half n1 n0).toNat ≤ rest.length <;> simp [hopm, hlen]
    · simp [hopm]
  · next hshort =>
    rw [requestsExact]
    · rfl
    · exact hshort

/-- The legality test passes exactly where the parser does (R89). -/
theorem requestsExact_eq_isSome (k : Nat) (bs : List Byte) :
    requestsExact k bs = (parseRequests k bs).isSome := by
  induction k generalizing bs with
  | zero => cases bs <;> rfl
  | succ k ih =>
    rw [requestsExact_succ, parseRequests_succ]
    rcases parseRequest bs with - | ⟨r, rest⟩
    · rfl
    · simp [ih]

/-! ### Host words (R82 to R89) -/

/-- What a host word `w` of the given legality may decode to: ILLEGAL on itself when it is illegal (R89), else
a well-formed instruction other than ILLEGAL. -/
def HostWordMeans (w : List Byte) (legal : Bool) (i : Instr) : Prop :=
  match legal with
  | false => i = .illegal w
  | true => i.wellFormed = true ∧ ∀ w', i ≠ .illegal w'

theorem decodeQcmd_means (w rest : List Byte) : HostWordMeans w (requestsExact 1 rest) (decodeQcmd w rest) := by
  rw [requestsExact_succ, decodeQcmd]
  rcases h : parseRequest rest with - | ⟨r, _ | ⟨b, tail⟩⟩
  · exact rfl
  · exact ⟨parseRequest_wellFormed h, nofun⟩
  · exact rfl

theorem decodeBare_means (w : List Byte) (i : Instr) (hwf : i.wellFormed = true) (hne : ∀ w', i ≠ .illegal w')
    (rest : List Byte) : HostWordMeans w rest.isEmpty (decodeBare w i rest) := by
  cases rest with
  | nil => exact ⟨hwf, hne⟩
  | cons b rest => exact rfl

theorem decodeRdsh_means (w rest : List Byte) : HostWordMeans w (rest.length == 4) (decodeRdsh w rest) := by
  unfold decodeRdsh
  split
  · exact ⟨rfl, nofun⟩
  · next hne =>
    have hlen : (rest.length == 4) = false := by
      rw [beq_eq_false_iff_ne]
      intro h4
      obtain ⟨a1, a0, n1, n0, rfl⟩ := List.length_eq_four.mp h4
      exact hne a1 a0 n1 n0 rfl
    rw [hlen]
    exact rfl

theorem decodeRtsub_means (w : List Byte) (k : Byte) (recs : List Byte) :
    HostWordMeans w (requestsExact k.toNat recs) (decodeRtsub w (k :: recs)) := by
  rw [requestsExact_eq_isSome, decodeRtsub]
  rcases h : parseRequests k.toNat recs with - | rs
  · exact rfl
  · obtain ⟨hlen, hall⟩ := parseRequests_wellFormed h
    refine ⟨?_, nofun⟩
    simp only [Instr.wellFormed, Bool.and_eq_true, decide_eq_true_eq, List.all_eq_true]
    exact ⟨hlen ▸ k.isLt, hall⟩

/-- The decoder and the rule R89 agree on every host word, opcode by opcode. -/
theorem decodeHostWord_means (w : List Byte) : HostWordMeans w (legalHostWord w) (decodeHostWord w) := by
  cases w with
  | nil => exact rfl
  | cons op rest =>
    by_cases h1 : op = 0x01#8
    · subst h1; exact decodeQcmd_means _ rest
    by_cases h2 : op = 0x02#8
    · subst h2; exact decodeBare_means _ .flush rfl nofun rest
    by_cases h3 : op = 0x03#8
    · subst h3; exact decodeRdsh_means _ rest
    by_cases h4 : op = 0x04#8
    · subst h4
      cases rest with
      | nil => exact rfl
      | cons k recs => exact decodeRtsub_means _ k recs
    by_cases h5 : op = 0x05#8
    · subst h5; exact decodeBare_means _ .chrst rfl nofun rest
    by_cases h6 : op = 0x06#8
    · subst h6; exact decodeBare_means _ .status rfl nofun rest
    · have hlegal : legalHostWord (op :: rest) = false := by simp [legalHostWord, h1, h2, h3, h4, h5, h6]
      have hdec : decodeHostWord (op :: rest) = .illegal (op :: rest) := by
        simp [decodeHostWord, h1, h2, h3, h4, h5, h6]
      rw [hlegal]
      exact hdec

theorem decodeHostWord_of_illegal {w : List Byte} (h : legalHostWord w = false) : decodeHostWord w = .illegal w := by
  have hm := decodeHostWord_means w
  rw [h] at hm
  exact hm

theorem decodeHostWord_wellFormed (w : List Byte) : (decodeHostWord w).wellFormed = true := by
  have hm := decodeHostWord_means w
  rcases hl : legalHostWord w
  · rw [decodeHostWord_of_illegal hl, Instr.wellFormed, hl]
    rfl
  · rw [hl] at hm
    exact hm.1

/-- R89: ILLEGAL is answered for exactly the illegal words, and on the word itself. -/
theorem decodeHostWord_eq_illegal_iff {w w' : List Byte} :
    decodeHostWord w = .illegal w' ↔ legalHostWord w = false ∧ w' = w := by
  constructor
  · intro h
    have hm := decodeHostWord_means w
    rcases hl : legalHostWord w
    · rw [decodeHostWord_of_illegal hl] at h
      cases h
      exact ⟨rfl, rfl⟩
    · rw [hl] at hm
      exact absurd h (hm.2 w')
  · rintro ⟨hl, rfl⟩
    exact decodeHostWord_of_illegal hl

/-! ### Command records (R75 to R77) -/

theorem recordAddr_selector (w : Bool) (m : Mode) (a : RegAddr) :
    recordAddr (writeBit w ||| modeBits m ||| (a.extractLsb' 8 6).setWidth 8) (a.extractLsb' 0 8) = a := by
  rw [recordAddr, lowBits_selector]
  exact BitVec.extractLsb'_append_extractLsb'_eq_extractLsb' (by decide) |>.trans (by simp)

/-- Byte 2 of a record carries every length a record may have (R77). -/
theorem recordLength_byte {n : Nat} (h : recordLenOk n = true) : (BitVec.ofNat 8 (n - 1)).toNat + 1 = n := by
  have hn : 1 ≤ n ∧ n ≤ 256 := of_decide_eq_true h
  rw [BitVec.toNat_ofNat]
  omega

/-- A READ record is its header alone; a WRITE's data stands behind it (R75). -/
theorem decodeRecord_read {n : Nat} (h : recordLenOk n = true) (m : Mode) (a : RegAddr) :
    decodeRecord (recordHeader false m a n) = .ok (readRecord m a n) := by
  simp only [decodeRecord, recordHeader, writeOfByte_selector, modeOfByte_selector, recordAddr_selector,
    recordLength_byte h]
  rfl

theorem decodeRecord_write {d : List Byte} (h : recordLenOk d.length = true) (m : Mode) (a : RegAddr) :
    decodeRecord (recordHeader true m a d.length ++ d) = .ok (writeRecord m a d) := by
  simp only [decodeRecord, recordHeader, List.cons_append, List.nil_append, writeOfByte_selector,
    modeOfByte_selector, recordAddr_selector, recordLength_byte h, lt_irrefl, if_true, if_false]

theorem readRecord_wellFormed (m : Mode) (a : RegAddr) (n : Nat) :
    (readRecord m a n).wellFormed = recordLenOk n := by
  cases m <;> rfl

theorem writeRecord_wellFormed (m : Mode) (a : RegAddr) (d : List Byte) :
    (writeRecord m a d).wellFormed = recordLenOk d.length := by
  cases m <;> rfl

/-- The length byte of a record stands for 1 to 256 bytes (R77). -/
theorem recordLenOk_byte (b : Byte) : recordLenOk (b.toNat + 1) = true := by
  have := b.isLt
  exact decide_eq_true (by omega)

theorem decodeRecord_wellFormed {bs : List Byte} {i : Instr} (h : decodeRecord bs = .ok i) : i.wellFormed = true := by
  unfold decodeRecord at h
  split at h
  · next b0 b1 b2 d =>
    split at h
    · split at h
      · cases h
      · split at h
        · next hlen =>
          cases h
          rw [writeRecord_wellFormed, hlen, recordLenOk_byte]
        · cases h
    · split at h
      · cases h
        rw [readRecord_wellFormed, recordLenOk_byte]
      · cases h
  · cases h

/-! ### Received bytes (R71, R90, R105) -/

/-- An encoded frame has a valid header, the length it announces and a matching CRC, so it reads as its row. -/
theorem decodeWire_encodeFrame (q : Byte) (t : Tag) (rt : Bool) {p : List Byte} (hp : payloadOk p = true) :
    decodeWire (encodeFrame q t rt p) = frameInstr t rt q p := by
  have hlen : p.length ≤ 256 := of_decide_eq_true hp
  have hgood := candidateGood_encode q t rt p
  have hpay := candidatePayload_encode q t rt p
  rw [encodeFrame_cons] at hgood hpay ⊢
  simp only [decodeWire, hdrValid_encode t rt hlen, hgood, hpay, headerLen_encode rt hlen, tagOfByte_tagByte,
    rtBit_encode, List.length_append, be16_length, Config.crcWidth, and_self, if_true]

theorem decodeWire_reserved {h0 h1 h2 h3 : Byte} (h : hdrValid h1 h2 h3 = false) :
    decodeWire [h0, h1, h2, h3] = .frameReserved h0 h1 h2 h3 := by
  simp [decodeWire, h]

theorem frameInstr_wellFormed (t : Tag) (rt : Bool) (q : Byte) {p : List Byte} (hp : payloadOk p = true) :
    (frameInstr t rt q p).wellFormed = true := by
  cases t <;> cases rt <;> simpa [frameInstr, Instr.wellFormed] using hp

theorem candidatePayload_length (f : List Byte) : (candidatePayload f).length = f.length - 6 := by
  simp only [candidatePayload, candidateBody, List.length_drop, List.length_take, Config.crcWidth, Config.hdrSize]
  omega

theorem headerLen_of_hdrValid {h1 h2 h3 : Byte} (h : hdrValid h1 h2 h3 = true) : headerLen h2 h3 ≤ 256 := by
  simp only [hdrValid, Bool.and_eq_true, decide_eq_true_eq, Config.maxDSize] at h
  exact h.2

/-- A chunk that is one good frame carries the payload length its valid header announces. -/
theorem decodeWire_wellFormed (bs : List Byte) : (decodeWire bs).wellFormed = true := by
  unfold decodeWire
  split
  · next h0 h1 h2 h3 rest =>
    split
    · next hvalid =>
      split
      · next hframe =>
        split
        · next tag _ =>
          refine frameInstr_wellFormed _ _ _ (decide_eq_true ?_)
          have hlen := hframe.1
          have hmax := headerLen_of_hdrValid hvalid
          rw [candidatePayload_length]
          simp only [List.length_cons, Config.crcWidth, Config.maxDSize] at hlen ⊢
          omega
        · rfl
      · rfl
    · next hinvalid =>
      split
      · simpa [Instr.wellFormed] using hinvalid
      · rfl
  · rfl

/-! ### The decoder on the encoder's answers, and the well-formedness of its own -/

/-- Each port's decoder undoes its encoder on well-formed instructions. -/
theorem decode_encode {i : Instr} (h : i.wellFormed = true) : decode (encode i) = .ok i :=
  match i with
  | .qcmd r => by
    have hr : parseRequest (requestBytes r) = some (r, []) := by
      simpa using parseRequest_requestBytes (rest := []) h
    exact congrArg Except.ok (by simp [decodeHostWord, decodeQcmd, hr])
  | .rtsub rs => by
    simp only [Instr.wellFormed, Bool.and_eq_true, decide_eq_true_eq, List.all_eq_true] at h
    obtain ⟨hcount, hrs⟩ := h
    refine congrArg Except.ok ?_
    simp [decodeHostWord, decodeRtsub, Nat.mod_eq_of_lt hcount, parseRequests_requestBytes hrs]
  | .rdsh a n => by
    refine congrArg Except.ok ?_
    simp [decodeHostWord, decodeRdsh, be16, half_be16]
  | .illegal w => congrArg Except.ok (decodeHostWord_of_illegal (by simpa [Instr.wellFormed] using h))
  | .readFifo a n => decodeRecord_read h .fifo a
  | .readAi a n => decodeRecord_read h .ai a
  | .writeFifo a d => decodeRecord_write h .fifo a
  | .writeAi a d => decodeRecord_write h .ai a
  | .frameCmd q p => congrArg Except.ok (decodeWire_encodeFrame q .cmd false h)
  | .frameCmdRt q p => congrArg Except.ok (decodeWire_encodeFrame q .cmd true h)
  | .frameAck q p => congrArg Except.ok (decodeWire_encodeFrame q .ack false h)
  | .frameMailbox q p => congrArg Except.ok (decodeWire_encodeFrame q .mailbox false h)
  | .frameRtResult .ack q p => congrArg Except.ok (decodeWire_encodeFrame q .ack true h)
  | .frameRtResult .mailbox q p => congrArg Except.ok (decodeWire_encodeFrame q .mailbox true h)
  | .frameRtResult .cmd q p => nomatch h
  | .frameReserved h0 h1 h2 h3 => congrArg Except.ok (decodeWire_reserved (by simpa [Instr.wellFormed] using h))
  | .flush | .chrst | .status | .rxByte _ | .timeout | .ioerr | .txrt | .por => rfl
  | .wr _ _ | .rd _ _ | .push _ _ | .wrsync _ _ | .rdsync _ _ | .poll _ => rfl

/-- The decoder's answers are well-formed, given that those to pseudo-operations are: the other ports bound their
fields themselves. -/
theorem decode_wellFormed {x : Input} {i : Instr} (hline : ∀ l, x = .line l → (lineInstr l).wellFormed = true)
    (h : decode x = .ok i) : i.wellFormed = true := by
  cases x with
  | host w => cases h; exact decodeHostWord_wellFormed w
  | record bs => exact decodeRecord_wellFormed h
  | wire bs => cases h; exact decodeWire_wellFormed bs
  | line l => cases h; exact hline l rfl
  | rx _ => cases h; rfl
  | timeout => cases h; rfl
  | ioerr => cases h; rfl
  | txrt => cases h; rfl
  | por => cases h; rfl

/-! ### Byte strings that are no command record (R75, R77) -/

/-- Fewer bytes than the record's header or, for a WRITE, than its length byte asks for. -/
def RecordTruncated (bs : List Byte) : Prop :=
  bs.length < 3 ∨ 128 ≤ (bs.getD 0 0x00#8).toNat ∧ bs.length < 3 + ((bs.getD 2 0x00#8).toNat + 1)

/-- More bytes than the record has. -/
def RecordTrailing (bs : List Byte) : Prop :=
  3 ≤ bs.length ∧ (128 ≤ (bs.getD 0 0x00#8).toNat ∧ 3 + ((bs.getD 2 0x00#8).toNat + 1) < bs.length
    ∨ ¬ 128 ≤ (bs.getD 0 0x00#8).toNat ∧ 3 < bs.length)

theorem recordTruncated_cons (b0 b1 b2 : Byte) (d : List Byte) :
    RecordTruncated (b0 :: b1 :: b2 :: d) ↔ 128 ≤ b0.toNat ∧ d.length < b2.toNat + 1 := by
  simp only [RecordTruncated, List.length_cons, List.getD_cons_zero, List.getD_cons_succ]
  omega

theorem recordTrailing_cons (b0 b1 b2 : Byte) (d : List Byte) :
    RecordTrailing (b0 :: b1 :: b2 :: d)
      ↔ 128 ≤ b0.toNat ∧ b2.toNat + 1 < d.length ∨ ¬ 128 ≤ b0.toNat ∧ 0 < d.length := by
  simp only [RecordTrailing, List.length_cons, List.getD_cons_zero, List.getD_cons_succ]
  omega

theorem decodeRecord_short {bs : List Byte} (h : bs.length < 3) : decodeRecord bs = .error .recordTruncated := by
  unfold decodeRecord
  split
  · simp at h
    omega
  · rfl

/-- The decoder rejects a record exactly when its length is not the one its header gives. -/
theorem decodeRecord_eq_error_iff (bs : List Byte) (why : Reject) :
    decodeRecord bs = .error why
      ↔ RecordTruncated bs ∧ why = .recordTruncated ∨ RecordTrailing bs ∧ why = .recordTrailing := by
  by_cases hshort : bs.length < 3
  · have htrunc : RecordTruncated bs := .inl hshort
    have htrail : ¬ RecordTrailing bs := fun h => absurd h.1 (by omega)
    simp [decodeRecord_short hshort, htrunc, htrail, eq_comm]
  · obtain ⟨b0, b1, b2, d, rfl⟩ : ∃ b0 b1 b2 d, bs = b0 :: b1 :: b2 :: d := by
      match bs with
      | b0 :: b1 :: b2 :: d => exact ⟨b0, b1, b2, d, rfl⟩
      | [] | [_] | [_, _] => simp at hshort
    rw [recordTruncated_cons, recordTrailing_cons, decodeRecord]
    simp only [writeOfByte_iff]
    by_cases hw : 128 ≤ b0.toNat
    · rcases Nat.lt_trichotomy d.length (b2.toNat + 1) with h | h | h
      · simp [hw, h, h.le, eq_comm]
      · simp [hw, h]
      · simp [hw, h, h.not_gt, h.ne', eq_comm]
    · cases d with
      | nil => simp [hw]
      | cons x d => simp [hw, eq_comm]

theorem decode_eq_error_iff (x : Input) (why : Reject) :
    decode x = .error why ↔ ∃ bs, x = .record bs ∧ decodeRecord bs = .error why := by
  cases x <;> simp [decode]

end Sys2Proof

namespace Sys2Proof.Machine

/-! ### The one refusal of a step -/

theorem finish_ne_refused (x : Except Fault State) (r : Refusal) : finish x ≠ .refused r := by
  cases x <;> nofun

/-- Every instruction has a meaning: its outcome is a next state or a fault. -/
theorem exec_ne_refused (i : Instr) (s : State) (r : Refusal) : exec i s ≠ .refused r :=
  match i with
  | .qcmd _ | .flush | .rtsub _ | .chrst | .status | .illegal _ | .ioerr | .txrt | .por | .readFifo _ _ | .readAi _ _
  | .writeFifo _ _ | .writeAi _ _ | .wr _ _ | .rd _ _ | .push _ _ | .wrsync _ _ | .rdsync _ _ => nofun
  | .rdsh a n => by
    change execRdsh a n s ≠ _
    unfold execRdsh
    split <;> nofun
  | .timeout => by
    change execTimeout s ≠ _
    unfold execTimeout
    split
    · nofun
    · exact finish_ne_refused _ r
  | .rxByte _ | .poll _ | .frameCmd _ _ | .frameCmdRt _ _ | .frameAck _ _ | .frameMailbox _ _
  | .frameRtResult _ _ _ | .frameReserved _ _ _ _ => finish_ne_refused _ r

/-- A step is refused by the decoder or not at all (R60). -/
theorem step_eq_refused_iff (s : State) (r : Refusal) :
    step s = .refused r
      ↔ ∃ x rest why, s.inputs = x :: rest ∧ decode x = .error why ∧ r = .malformedRecord why := by
  constructor
  · intro h
    unfold step at h
    split at h
    · exact absurd h (exec_ne_refused _ _ _)
    · next x rest hin =>
      split at h
      · exact absurd h (exec_ne_refused _ _ _)
      · next why hdec =>
        cases h
        exact ⟨x, rest, why, hin, hdec, rfl⟩
  · rintro ⟨x, rest, why, hin, hdec, rfl⟩
    simp only [step, hin, hdec]

/-! ### Bytes at a frame boundary (R105, R107) -/

theorem tagOfByte_isSome_iff (b : Byte) :
    (tagOfByte b).isSome = true ↔ b.toNat = 0xD0 ∨ b.toNat = 0xD1 ∨ b.toNat = 0xD2 := by
  revert b; decide +kernel

theorem headerLen_eq (h2 h3 : Byte) : headerLen h2 h3 = h2.toNat + 256 * (h3.toNat % 2) := by
  have hbit : ∀ b : Byte, (b.getLsbD 0).toNat = b.toNat % 2 := by decide +kernel
  rw [headerLen, hbit]

theorem reservedBits_iff (b : Byte) : (b.extractLsb' 1 6 == 0#6) = true ↔ b.toNat / 2 % 64 = 0 := by
  revert b; decide +kernel

/-- R105's header test on the numbers of R73 and R74. -/
theorem hdrValid_iff (h1 h2 h3 : Byte) : hdrValid h1 h2 h3 = true ↔ HeaderOk h1 h2 h3 := by
  rw [hdrValid, Bool.and_eq_true, Bool.and_eq_true, tagOfByte_isSome_iff, reservedBits_iff, decide_eq_true_iff,
    headerLen_eq, and_assoc]
  rfl

/-- Fewer than four bytes wait (R107). -/
theorem syncStep_short {s : State} (h : s.rxBuf.length < 4) : syncStep s = s := by
  unfold syncStep
  split
  · next hbuf =>
    rw [hbuf] at h
    simp at h
    omega
  · rfl

/-- Four bytes that are no header slide by one (R107). -/
theorem syncStep_slide {s : State} {h0 h1 h2 h3 : Byte} {rest : List Byte}
    (hbuf : s.rxBuf = h0 :: h1 :: h2 :: h3 :: rest) (hinvalid : hdrValid h1 h2 h3 = false) :
    syncStep s = { s with rxBuf := [h1, h2, h3] } := by
  simp [syncStep, hbuf, hinvalid]

/-- In SYNC a chunk that leaves fewer than four bytes in the buffer is kept, and nothing else moves. -/
theorem receiveBytes_short {bs : List Byte} {s : State} (hf : s.fatal = false) (hs : s.rxState = .sync)
    (hlen : s.rxBuf.length + bs.length < 4) : receiveBytes bs s = .ok { s with rxBuf := s.rxBuf ++ bs } := by
  induction bs generalizing s with
  | nil => simp [receiveBytes]
  | cons b bs ih =>
    simp only [List.length_cons] at hlen
    have hstep : receiveByte b s = .ok { s with rxBuf := s.rxBuf ++ [b] } := by
      rw [receiveByte_sync hf hs, syncStep_short (by simp; omega)]
    rw [receiveBytes, hstep]
    simpa using ih (s := { s with rxBuf := s.rxBuf ++ [b] }) hf hs (by simp; omega)

theorem receiveBytes_cons_ok {b : Byte} {bs : List Byte} {s t : State} (h : receiveByte b s = .ok t) :
    receiveBytes (b :: bs) s = receiveBytes bs t := by
  rw [receiveBytes, h]

theorem receiveBytes_reserved {h0 h1 h2 h3 : Byte} {s : State} (hr : RxReady s) (hinvalid : hdrValid h1 h2 h3 = false) :
    receiveBytes [h0, h1, h2, h3] s = .ok { s with rxBuf := [h1, h2, h3] } := by
  obtain ⟨hf, hs, hbuf, -⟩ := hr
  have hthree : receiveBytes [h0, h1, h2] s = .ok { s with rxBuf := s.rxBuf ++ [h0, h1, h2] } :=
    receiveBytes_short hf hs (by simp [hbuf])
  have hlast : receiveByte h3 { s with rxBuf := s.rxBuf ++ [h0, h1, h2] } = .ok { s with rxBuf := [h1, h2, h3] } := by
    rw [receiveByte_sync (s := { s with rxBuf := s.rxBuf ++ [h0, h1, h2] }) hf hs]
    exact congrArg Except.ok (syncStep_slide (h0 := h0) (rest := []) (by simp [hbuf]) hinvalid)
  calc receiveBytes ([h0, h1, h2] ++ [h3]) s
      = receiveBytes [h3] { s with rxBuf := s.rxBuf ++ [h0, h1, h2] } := receiveBytes_append_ok hthree
    _ = .ok { s with rxBuf := [h1, h2, h3] } := receiveBytes_cons_ok hlast

/-! ### QCMD and FLUSH, case by case (R132, R134) -/

theorem submit_of_open {p : List Byte} {reads : List ReadRec} {s : State} (hopen : ¬ SubmitBlocked s) :
    submit p reads s = some (s.sm, s.submitted p reads) := by
  obtain ⟨hw, ho⟩ := not_or.mp hopen
  exact submit_of_free hw (by simpa using ho)

theorem queueCommand_fatal (r : Request) {s : State} (hf : s.fatal = true) :
    queueCommand r s = s.answers [.result [0x04#8]] := by
  rw [queueCommand, if_pos hf]
  rfl

theorem queueCommand_rejected {r : Request} {s : State} (hf : s.fatal = false) (hn : r.len ≠ 0)
    (hc : checkRequest r ≠ .ok) : queueCommand r s = s.answers [.result [codeByte (checkRequest r)]] := by
  rw [queueCommand, if_neg (by simp [hf]), if_neg hn, if_pos hc]
  rfl

/-- A record past the end of the register space (R131). -/
theorem queueCommand_outOfRange {r : Request} {s : State} (hf : s.fatal = false) (hn : r.len ≠ 0)
    (hout : 16384 < r.addr.toNat + r.len) : queueCommand r s = s.answers [.result [0x02#8]] := by
  have hc : checkRequest r = .addressOutOfRange := if_pos hout
  rw [queueCommand_rejected hf hn (by simp [hc]), hc]
  rfl

/-- A record inside the register space that no frame holds (R131). -/
theorem queueCommand_tooLarge {r : Request} {s : State} (hf : s.fatal = false)
    (hin : r.addr.toNat + r.len ≤ 16384) (hbig : (if r.isWrite then 253 else 256) < r.len) :
    queueCommand r s = s.answers [.result [0x03#8]] := by
  have hn : r.len ≠ 0 := by omega
  have hc : checkRequest r = .payloadTooLarge := by
    simp only [checkRequest, check, Config.shadowSize, Config.maxDSize, Config.recHdr]
    rw [if_neg (by omega)]
    by_cases h256 : 256 < r.len
    · rw [if_pos h256]
    · have hw : r.isWrite = true := by
        by_contra hw
        rw [if_neg hw] at hbig
        omega
      rw [if_pos hw] at hbig
      rw [if_neg h256, if_pos ⟨hw, by omega⟩]
  rw [queueCommand_rejected hf hn (by simp [hc]), hc]
  rfl

/-- An accepted record that fits joins the pending frame (R132). -/
theorem queueCommand_fits {r : Request} {s : State} (hf : s.fatal = false) (ha : Accepted r)
    (hfit : s.pendBytes = [] ∨ FitsPending r s) : queueCommand r s = (s.queued r).answers [.result [0x00#8]] := by
  have hn : r.len ≠ 0 := Nat.one_le_iff_ne_zero.mp ha.1
  have hc : checkRequest r = .ok := (checkRequest_eq_ok hn).mpr ha
  have haddr : r.addr.toNat < 16384 := by
    have := ha.1; have := ha.2.1
    omega
  rw [← fits_iff] at hfit
  rw [queueCommand, if_neg (by simp [hf]), if_neg hn, if_neg (by simp [hc]), if_pos hfit, appendRecord_eq s haddr]
  rfl

/-- FLUSH with the window open sends the pending frame (R134, R161). -/
theorem flushPending_open {s : State} (hf : s.fatal = false) (hp : s.pendBytes ≠ []) (hopen : ¬ SubmitBlocked s) :
    flushPending s = ((s.submitted s.pendBytes s.pendReads).unpended).answers [.result [0x00#8, s.sm]] := by
  rw [flushPending, if_neg (by simp [hf]), if_neg hp, submit_of_open hopen]
  rfl

/-- QCMD of a fitting record and then FLUSH: the record is the last of the frame that leaves (R94). -/
theorem flushPending_queueCommand {r : Request} {s : State} (hf : s.fatal = false) (hopen : ¬ SubmitBlocked s)
    (ha : Accepted r) (hfit : s.pendBytes = [] ∨ FitsPending r s) :
    flushPending (queueCommand r s)
      = (((s.answers [.result [0x00#8]]).submitted (s.queued r).pendBytes (s.queued r).pendReads).unpended).answers
          [.result [0x00#8, s.sm]] := by
  have hp : (s.queued r).pendBytes ≠ [] := by simp [State.queued, recordOf, recordNumbers]
  rw [queueCommand_fits hf ha hfit]
  exact flushPending_open (s := (s.queued r).answers [.result [0x00#8]]) hf hp hopen

theorem queued_write (m : Mode) (a : Half) (d : List Byte) (s : State) :
    s.queued (.write m a d)
      = { s with pendBytes := s.pendBytes ++ recordNumbers true (decide (m = .ai)) a.toNat d.length d } := by
  simp only [State.queued, Request.isWrite, if_true, List.append_nil, Nat.add_zero]
  rfl

theorem queued_read (m : Mode) (a n : Half) (s : State) :
    s.queued (.read m a n)
      = { s with
          pendBytes := s.pendBytes ++ recordNumbers false (decide (m = .ai)) a.toNat n.toNat []
          pendReads := s.pendReads ++ [{ mode := m, addr := BitVec.ofNat 14 a.toNat, n := n.toNat }]
          pendResp := s.pendResp + n.toNat } :=
  rfl

/-! ### The command record rows (R75, R76) -/

theorem recordRequest_addr (a : RegAddr) : (a.setWidth 16 : Half).toNat = a.toNat := by
  have := a.isLt
  rw [BitVec.toNat_setWidth]
  omega

theorem recordRequest_len {n : Nat} (h : n ≤ 256) : (BitVec.ofNat 16 n).toNat = n := by
  rw [BitVec.toNat_ofNat]
  omega

/-- A READ record row is the QCMD of its request. -/
theorem exec_readRecord (m : Mode) (a : RegAddr) (n : Nat) (s : State) :
    exec (readRecord m a n) s = .next (queueCommand (readRequest m a n) s) := by
  cases m <;> rfl

theorem exec_writeRecord (m : Mode) (a : RegAddr) (d : List Byte) (s : State) :
    exec (writeRecord m a d) s = .next (queueCommand (writeRequest m a d) s) := by
  cases m <;> rfl

theorem exec_readRecord_outOfRange {m : Mode} {a : RegAddr} {n : Nat} {s : State} (hf : s.fatal = false)
    (h1 : 1 ≤ n) (hn : n ≤ 256) (hout : 16384 < a.toNat + n) :
    exec (readRecord m a n) s = .next (s.answers [.result [0x02#8]]) := by
  have hlen : (readRequest m a n).len = n := recordRequest_len hn
  have haddr : (readRequest m a n).addr.toNat = a.toNat := recordRequest_addr a
  rw [exec_readRecord, queueCommand_outOfRange hf (by omega) (by omega)]

theorem exec_readRecord_fits {m : Mode} {a : RegAddr} {n : Nat} {s : State} (hf : s.fatal = false)
    (h1 : 1 ≤ n) (hn : n ≤ 256) (hin : a.toNat + n ≤ 16384)
    (hfit : s.pendBytes = [] ∨ s.pendBytes.length + 3 ≤ 256 ∧ s.pendResp + n ≤ 256) :
    exec (readRecord m a n) s
      = .next (State.answers { s with
          pendBytes := s.pendBytes ++ recordNumbers false (decide (m = .ai)) a.toNat n []
          pendReads := s.pendReads ++ [{ mode := m, addr := a, n := n }]
          pendResp := s.pendResp + n } [.result [0x00#8]]) := by
  have hlen : (readRequest m a n).len = n := recordRequest_len hn
  have haddr : (readRequest m a n).addr.toNat = a.toNat := recordRequest_addr a
  have hacc : Accepted (readRequest m a n) := by
    refine ⟨by omega, by omega, ?_⟩
    rw [hlen]
    exact hn
  have hfits : s.pendBytes = [] ∨ FitsPending (readRequest m a n) s := by
    rw [FitsPending, hlen]
    exact hfit
  rw [exec_readRecord, queueCommand_fits hf hacc hfits, readRequest, queued_read, recordRequest_addr,
    recordRequest_len hn, BitVec.ofNat_toNat, BitVec.setWidth_eq]

theorem exec_writeRecord_outOfRange {m : Mode} {a : RegAddr} {d : List Byte} {s : State} (hf : s.fatal = false)
    (h1 : 1 ≤ d.length) (hout : 16384 < a.toNat + d.length) :
    exec (writeRecord m a d) s = .next (s.answers [.result [0x02#8]]) := by
  have haddr : (writeRequest m a d).addr.toNat = a.toNat := recordRequest_addr a
  have hlen : (writeRequest m a d).len = d.length := rfl
  rw [exec_writeRecord, queueCommand_outOfRange hf (by omega) (by omega)]

theorem exec_writeRecord_tooLarge {m : Mode} {a : RegAddr} {d : List Byte} {s : State} (hf : s.fatal = false)
    (hin : a.toNat + d.length ≤ 16384) (hbig : 253 < d.length) :
    exec (writeRecord m a d) s = .next (s.answers [.result [0x03#8]]) := by
  have haddr : (writeRequest m a d).addr.toNat = a.toNat := recordRequest_addr a
  have hlen : (writeRequest m a d).len = d.length := rfl
  rw [exec_writeRecord, queueCommand_tooLarge (r := writeRequest m a d) hf (by omega) hbig]

theorem exec_writeRecord_fits {m : Mode} {a : RegAddr} {d : List Byte} {s : State} (hf : s.fatal = false)
    (h1 : 1 ≤ d.length) (hin : a.toNat + d.length ≤ 16384) (hd : d.length ≤ 253)
    (hfit : s.pendBytes = [] ∨ s.pendBytes.length + (3 + d.length) ≤ 256 ∧ s.pendResp ≤ 256) :
    exec (writeRecord m a d) s
      = .next (State.answers { s with
          pendBytes := s.pendBytes ++ recordNumbers true (decide (m = .ai)) a.toNat d.length d }
            [.result [0x00#8]]) := by
  have haddr : (writeRequest m a d).addr.toNat = a.toNat := recordRequest_addr a
  have hlen : (writeRequest m a d).len = d.length := rfl
  have hacc : Accepted (writeRequest m a d) := ⟨by omega, by omega, hd⟩
  rw [exec_writeRecord, queueCommand_fits hf hacc hfit, writeRequest, queued_write, recordRequest_addr]

end Sys2Proof.Machine
end

section
/-!
PROOFS. spec/30_encoding.md, its obligations.
-/

namespace Sys2Proof.Proofs

open Sys2Proof.Machine

/-- Settles O2, from the round trips of requests, records and frames. -/
theorem decodeOfEncodeGivesTheInstructionBack : Obligations.DecodeOfEncodeGivesTheInstructionBack :=
  fun _ h => decode_encode h

/-- Settles O3: of the pseudo-operations, those with data are bounded by the premise. -/
theorem decoderAnswersWellFormedInstructions : Obligations.DecoderAnswersWellFormedInstructions := by
  intro x i hdata h
  refine decode_wellFormed (fun l hl => ?_) h
  subst hl
  cases l with
  | wr a d => exact decide_eq_true hdata
  | push a d => exact decide_eq_true hdata
  | wrsync a d => exact decide_eq_true hdata
  | rd _ _ => rfl
  | rdsync _ _ => rfl
  | poll _ => rfl

/-- Settles O4, from the decoder's agreement with R89 on every host word. -/
theorem illegalHostWordsAreThoseOfTheRule : Obligations.IllegalHostWordsAreThoseOfTheRule := by
  intro w
  refine ⟨?_, fun w' h => (decodeHostWord_eq_illegal_iff.mp h).2, fun s h => ?_⟩
  · simp [decodeHostWord_eq_illegal_iff]
  · rw [decodeHostWord_of_illegal h]
    rfl

/-- Settles O11: no instruction is refused, and the decoder rejects only records of a wrong length. -/
theorem stepRefusesOnlyMalformedRecords : Obligations.StepRefusesOnlyMalformedRecords := by
  intro s why
  rw [step_eq_refused_iff]
  constructor
  · rintro ⟨x, rest, reject, hin, hdec, rfl⟩
    obtain ⟨bs, rfl, hrec⟩ := (decode_eq_error_iff x reject).mp hdec
    refine ⟨bs, rest, hin, ?_⟩
    rcases (decodeRecord_eq_error_iff bs reject).mp hrec with ⟨h, rfl⟩ | ⟨h, rfl⟩
    · exact .inl ⟨h, rfl⟩
    · exact .inr ⟨h.1, h.2, rfl⟩
  · rintro ⟨bs, rest, hin, ⟨h, rfl⟩ | ⟨h3, h, rfl⟩⟩
    · exact ⟨_, rest, _, hin, (decodeRecord_eq_error_iff bs _).mpr (.inl ⟨h, rfl⟩), rfl⟩
    · exact ⟨_, rest, _, hin, (decodeRecord_eq_error_iff bs _).mpr (.inr ⟨⟨h3, h⟩, rfl⟩), rfl⟩

/-- Settles O45: three bytes wait, and the fourth slides the window. -/
theorem reservedHeaderSlides : Obligations.ReservedHeaderSlides := by
  intro h0 h1 h2 h3 s hr hinvalid
  rw [← hdrValid_iff, Bool.not_eq_true] at hinvalid
  exact congrArg finish (receiveBytes_reserved hr hinvalid)

/-- Settles O53, the rows' cases being QCMD's. -/
theorem recordsJoinThePendingFrame : Obligations.RecordsJoinThePendingFrame := by
  intro addr n d ai s mode read write
  have hread : read = readRecord mode addr n := by cases ai <;> rfl
  have hwrite : write = writeRecord mode addr d := by cases ai <;> rfl
  have hai : decide (mode = .ai) = ai := by cases ai <;> rfl
  rw [hread, hwrite, BitVec.ofNat_toNat, ← hai]
  refine ⟨exec_readRecord mode addr n s, exec_writeRecord mode addr d s, fun hf => ⟨?_, ?_⟩,
    fun hf h1 hn => ⟨?_, ?_⟩, fun hf h1 _ => ⟨?_, ?_, ?_⟩⟩
  · rw [exec_readRecord, queueCommand_fatal _ hf]
  · rw [exec_writeRecord, queueCommand_fatal _ hf]
  · exact exec_readRecord_outOfRange hf h1 hn
  · exact exec_readRecord_fits hf h1 hn
  · exact exec_writeRecord_outOfRange hf h1
  · exact exec_writeRecord_tooLarge hf
  · exact exec_writeRecord_fits hf h1

/-- Settles O55: each is the QCMD of a record that fits. -/
theorem wrRdAndPushQueueTheirRecord : Obligations.WrRdAndPushQueueTheirRecord := by
  intro a n d s hf
  refine ⟨fun ha hfit => ⟨?_, ?_⟩, fun ha hfit => ?_⟩
  · have h := queueCommand_fits hf ha hfit
    rw [queued_write] at h
    exact congrArg _ h
  · have h := queueCommand_fits (r := .write .fifo a d) hf ha hfit
    rw [queued_write] at h
    exact congrArg _ h
  · exact congrArg _ (queueCommand_fits hf ha hfit)

/-- Settles O56: QCMD of a record that fits, then FLUSH with the window open. -/
theorem wrsyncAndRdsyncSendTheirRecord : Obligations.WrsyncAndRdsyncSendTheirRecord := by
  intro a n d s hf hopen
  refine ⟨fun ha hfit => ?_, fun ha hfit => ?_⟩
  · have h := flushPending_queueCommand hf hopen ha hfit
    rw [queued_write] at h
    exact congrArg _ h
  · have h := flushPending_queueCommand hf hopen ha hfit
    rw [queued_read] at h
    exact congrArg _ h

/-- Settles O1, each word by running the decoder on it. -/
theorem wordsOfTheSpecDecodeToTheirOperations : Obligations.WordsOfTheSpecDecodeToTheirOperations := by
  refine ⟨rfl, rfl, rfl, rfl, rfl, rfl, rfl, rfl, rfl, rfl, congrArg Except.ok ?_, congrArg Except.ok ?_,
    congrArg Except.ok ?_⟩
  · decide +kernel
  · decide +kernel
  · decide +kernel

/-- Settles O54: both sides run the same shared operations. -/
theorem pseudoOperationsAreTheirExpansions : Obligations.PseudoOperationsAreTheirExpansions := by
  intro a n d bs b s
  refine ⟨rfl, rfl, rfl, fun t h => ?_, fun t h => ?_, rfl, fun t h => ?_⟩
  · cases h
    rfl
  · cases h
    rfl
  · exact congrArg finish (receiveBytes_cons_ok (finish_eq_next h))

end Sys2Proof.Proofs
end

section
/-!
PROOFS. spec/40_frame_codec.md, the laws its statements need: the CRC and ENCODE on numbers, the deframer's two
states case by case, a whole candidate frame fed to a ready deframer, and streams of mailbox frames.
-/

namespace Sys2Proof.Machine

/-! ### The CRC on numbers (R101) -/

/-- One shift of R101 on numbers: doubling modulo 65536, and the polynomial where bit 15 was set. -/
def crcShiftNumber (x : Nat) : Nat :=
  if x / 32768 = 1 then (2 * x ^^^ 0x1021) % 65536 else 2 * x % 65536

theorem crcShift_toNat (c : Half) : (crcShift c).toNat = crcShiftNumber c.toNat := by
  have hlt := c.isLt
  have hdouble : (c <<< 1).toNat = 2 * c.toNat % 65536 := by
    rw [BitVec.toNat_shiftLeft, Nat.shiftLeft_eq]
    omega
  have hmsb : c.msb = true ↔ c.toNat / 32768 = 1 := by
    rw [BitVec.msb_eq_decide, decide_eq_true_iff]
    omega
  unfold crcShift crcShiftNumber
  by_cases h : c.toNat / 32768 = 1
  · rw [if_pos (hmsb.mpr h), if_pos h, BitVec.toNat_xor, hdouble]
    exact (Nat.xor_mod_two_pow (n := 16)).symm
  · rw [if_neg (mt hmsb.mp h), if_neg h, hdouble]

theorem crcShifts_eq_iterate (k : Nat) (c : Half) : crcShifts k c = crcShift^[k] c := by
  induction k generalizing c with
  | zero => rfl
  | succ k ih => rw [crcShifts, ih, Function.iterate_succ_apply]

theorem crcShifts_toNat (k : Nat) (c : Half) : (crcShifts k c).toNat = crcShiftNumber^[k] c.toNat := by
  rw [crcShifts_eq_iterate]
  exact (Function.Semiconj.iterate_right crcShift_toNat k) c

/-- The byte goes to the high half of the register. -/
theorem crcByte_toNat (c : Half) (b : Byte) :
    (crcByte c b).toNat = crcShiftNumber^[8] (c.toNat ^^^ (b.toNat * 256)) := by
  have hbyte : (b.setWidth 16 <<< 8).toNat = b.toNat * 256 := by
    rw [BitVec.toNat_shiftLeft, Nat.shiftLeft_eq, BitVec.toNat_setWidth]
    omega
  rw [crcByte, crcShifts_toNat, BitVec.toNat_xor, hbyte]

theorem crc_toNat (bs : List Byte) :
    (crc bs).toNat = bs.foldl (fun c b => crcShiftNumber^[8] (c ^^^ (b.toNat * 256))) 0xFFFF :=
  (List.foldl_hom BitVec.toNat fun c b => (crcByte_toNat c b).symm).symm

/-! ### Header fields on numbers (R73, R74) -/

theorem tagByte_eq_tagNumber (t : Tag) : tagByte t = tagNumber t := by
  cases t <;> rfl

theorem lowLengthByte_eq (n : Nat) : (BitVec.ofNat 9 n).extractLsb' 0 8 = BitVec.ofNat 8 (n % 256) := by
  apply BitVec.eq_of_toNat_eq
  rw [BitVec.extractLsb'_toNat, BitVec.toNat_ofNat, BitVec.toNat_ofNat, Nat.shiftRight_zero]
  omega

/-- Byte 3 of R74: RT above L[8]. -/
theorem modeByte_eq (rt : Bool) {n : Nat} (h : n ≤ 256) :
    modeByte rt n = BitVec.ofNat 8 (128 * rt.toNat + n / 256) := by
  have hbit : (BitVec.ofNat 9 n).extractLsb' 8 1 = BitVec.ofNat 1 (n / 256) := by
    apply BitVec.eq_of_toNat_eq
    rw [BitVec.extractLsb'_toNat, BitVec.toNat_ofNat, BitVec.toNat_ofNat, Nat.shiftRight_eq_div_pow]
    omega
  have hhigh : n / 256 = 0 ∨ n / 256 = 1 := by omega
  rw [modeByte, hbit]
  rcases hhigh with h0 | h1
  · rw [h0]
    cases rt <;> rfl
  · rw [h1]
    cases rt <;> rfl

theorem rtBit_eq (b : Byte) : rtBit b = decide (128 ≤ b.toNat) := by
  rw [Bool.eq_iff_iff, decide_eq_true_iff]
  exact writeOfByte_iff b

/-- A 16-bit field's bytes as numbers, the high one first (R55). -/
theorem be16_eq (v : Half) : be16 v = [BitVec.ofNat 8 (v.toNat / 256), BitVec.ofNat 8 (v.toNat % 256)] := by
  have hhigh : v.extractLsb' 8 8 = BitVec.ofNat 8 (v.toNat / 256) := by
    apply BitVec.eq_of_toNat_eq
    rw [BitVec.extractLsb'_toNat, BitVec.toNat_ofNat, Nat.shiftRight_eq_div_pow]
  have hlow : v.extractLsb' 0 8 = BitVec.ofNat 8 (v.toNat % 256) := by
    apply BitVec.eq_of_toNat_eq
    rw [BitVec.extractLsb'_toNat, BitVec.toNat_ofNat, Nat.shiftRight_zero]
    omega
  rw [be16, hhigh, hlow]

theorem frameHeader_eq (q : Byte) (t : Tag) (rt : Bool) {n : Nat} (h : n ≤ 256) :
    frameHeader q t rt n
      = [q, tagNumber t, BitVec.ofNat 8 (n % 256), BitVec.ofNat 8 (128 * rt.toNat + n / 256)] := by
  rw [frameHeader, tagByte_eq_tagNumber, lowLengthByte_eq, modeByte_eq rt h]

/-! ### SYNC_STEP and PLOAD_STEP, case by case (R107, R108) -/

/-- Four bytes that are a header open a candidate frame. -/
theorem syncStep_header {s : State} {h0 h1 h2 h3 : Byte} {rest : List Byte}
    (hbuf : s.rxBuf = h0 :: h1 :: h2 :: h3 :: rest) (hvalid : hdrValid h1 h2 h3 = true) :
    syncStep s = { s with rxNeed := headerLen h2 h3 + 2, rxState := .ploadCrc } := by
  simp [syncStep, hbuf, hvalid, Config.crcWidth]

theorem ploadStep_short {s : State} (h : s.rxBuf.length < 4 + s.rxNeed) : ploadStep s = .ok s := by
  rw [ploadStep, if_pos h]

/-- At the last byte the CRC decides, on a deframer that is in SYNC again. -/
theorem ploadStep_complete {s : State} (h : 4 + s.rxNeed ≤ s.rxBuf.length) :
    ploadStep s = if candidateGood s.rxBuf then frameOk s.rxBuf s.rxIdle else frameBad s.rxIdle := by
  rw [ploadStep, if_neg (Nat.not_lt.mpr h)]

/-- The received CRC as a number: the last two bytes, high byte first. -/
theorem candidateCrc_toNat_concat (bs : List Byte) (b : Byte) :
    (candidateCrc (bs ++ [b])).toNat
      = 256 * ((bs ++ [b]).getD ((bs ++ [b]).length - 2) 0x00#8).toNat + b.toNat := by
  have hlast : (bs ++ [b]).getD ((bs ++ [b]).length - 1) 0x00#8 = b := by simp
  rw [candidateCrc, half_toNat, hlast]

/-- R108's test on numbers, at the byte that completes the candidate. -/
theorem candidateGood_concat_iff (bs : List Byte) (b : Byte) :
    candidateGood (bs ++ [b]) = true ↔
      (crc ((bs ++ [b]).take ((bs ++ [b]).length - 2))).toNat
        = 256 * ((bs ++ [b]).getD ((bs ++ [b]).length - 2) 0x00#8).toNat + b.toNat := by
  rw [← candidateCrc_toNat_concat, candidateGood, beq_iff_eq]
  exact BitVec.toNat_inj.symm

/-! ### FRAME_BAD (R110) -/

theorem crcCountUp_eq (c : Count) : crcCountUp c = BitVec.ofNat 32 (min (c.toNat + 1) 0xFFFFFFFF) := by
  have hlt := c.isLt
  have hmax : c < Config.crcCountMax ↔ c.toNat < 0xFFFFFFFF := Iff.rfl
  apply BitVec.eq_of_toNat_eq
  rw [crcCountUp, BitVec.toNat_ofNat]
  by_cases h : c.toNat < 0xFFFFFFFF
  · rw [if_pos (hmax.mpr h), BitVec.toNat_add, BitVec.toNat_ofNat]
    omega
  · rw [if_neg (mt hmax.mp h)]
    omega

/-- What FRAME_BAD does before it recovers: one count and its event. -/
def State.crcCounted (s : State) : State :=
  { s with
    crcErrors := BitVec.ofNat 32 (min (s.crcErrors.toNat + 1) 0xFFFFFFFF)
    history := s.history ++ [.event (.crcError (BitVec.ofNat 32 (min (s.crcErrors.toNat + 1) 0xFFFFFFFF)))] }

theorem frameBad_eq_recover (s : State) : frameBad s = recover .crc s.crcCounted := by
  rw [frameBad, crcCountUp_eq]
  rfl

/-- FRAME_BAD where every outstanding frame is in its slot (R27). -/
theorem frameBad_eq {s : State} (h : ∀ q, outstanding s q = true → (s.slot q).occupied = true) :
    frameBad s = .ok (s.crcCounted.recovered .maxRetransmitExceeded) := by
  rw [frameBad_eq_recover]
  exact recover_eq .crc s.crcCounted h

/-- With nothing outstanding there is nothing to resend. -/
theorem frameBad_of_window_zero {s : State} (hw : window s = 0) : frameBad s = .ok s.crcCounted := by
  have hw' : window s.crcCounted = 0 := hw
  have hnone : ∀ q, outstanding s q = true → (s.slot q).occupied = true := fun q hq => by
    rw [outstanding_iff, hw] at hq
    omega
  rw [frameBad_eq hnone, State.recovered, if_pos (.inr hw')]

/-! ### A candidate frame at a ready deframer (R107, R108, R112) -/

/-- The deframer inside a candidate frame: the bytes so far, and how many payload and CRC bytes it expects. -/
def State.collecting (s : State) (buf : List Byte) (need : Nat) : State :=
  { s with rxState := .ploadCrc, rxBuf := buf, rxNeed := need }

/-- A byte string whose header is valid and announces exactly its length: what the deframer collects before it
looks at the CRC. -/
def IsCandidate (f : List Byte) : Prop :=
  ∃ h0 h1 h2 h3 rest, f = h0 :: h1 :: h2 :: h3 :: rest ∧ hdrValid h1 h2 h3 = true
    ∧ rest.length = headerLen h2 h3 + 2

theorem isCandidate_encodeFrame (q : Byte) (t : Tag) (rt : Bool) {p : List Byte} (hp : p.length ≤ 256) :
    IsCandidate (encodeFrame q t rt p) :=
  ⟨_, _, _, _, _, encodeFrame_cons q t rt p, hdrValid_encode t rt hp, by simp [headerLen_encode rt hp]⟩

/-- Header bytes 1 to 3 and the length decide, whatever the other bytes. -/
theorem IsCandidate.of_sameHeader {f g : List Byte} (hf : IsCandidate f) (hlen : g.length = f.length)
    (hhdr : (g.take 4).drop 1 = (f.take 4).drop 1) : IsCandidate g := by
  obtain ⟨h0, h1, h2, h3, rest, rfl, hvalid, hrest⟩ := hf
  match g with
  | [] | [_] | [_, _] | [_, _, _] => simp at hlen
  | g0 :: g1 :: g2 :: g3 :: grest =>
    simp only [List.take_succ_cons, List.take_zero, List.drop_succ_cons, List.drop_zero, List.cons.injEq,
      and_true] at hhdr
    obtain ⟨rfl, rfl, rfl⟩ := hhdr
    simp only [List.length_cons, Nat.add_right_cancel_iff] at hlen
    exact ⟨g0, g1, g2, g3, grest, rfl, hvalid, hlen.trans hrest⟩

/-- A byte short of the announced length is kept, and so is every chunk of them (R108). -/
theorem receiveBytes_collecting {bs buf : List Byte} {need : Nat} {s : State} (hf : s.fatal = false)
    (hlen : buf.length + bs.length < 4 + need) :
    receiveBytes bs (s.collecting buf need) = .ok (s.collecting (buf ++ bs) need) := by
  induction bs generalizing buf with
  | nil => rw [List.append_nil]; rfl
  | cons b bs ih =>
    simp only [List.length_cons] at hlen
    have hstep : receiveByte b (s.collecting buf need) = .ok (s.collecting (buf ++ [b]) need) := by
      rw [receiveByte_pload (s := s.collecting buf need) hf rfl]
      exact ploadStep_short (s := s.collecting (buf ++ [b]) need)
        (show (buf ++ [b]).length < 4 + need by simp; omega)
    rw [receiveBytes_cons_ok hstep, ih (by simp; omega), List.append_assoc]
    rfl

/-- The fourth byte of a valid header opens the candidate (R107). -/
theorem receiveBytes_header {h0 h1 h2 h3 : Byte} {s : State} (hr : RxReady s) (hvalid : hdrValid h1 h2 h3 = true) :
    receiveBytes [h0, h1, h2, h3] s = .ok (s.collecting [h0, h1, h2, h3] (headerLen h2 h3 + 2)) := by
  obtain ⟨hf, hs, hbuf, -⟩ := hr
  have hthree : receiveBytes [h0, h1, h2] s = .ok { s with rxBuf := [h0, h1, h2] } := by
    rw [receiveBytes_short hf hs (by simp [hbuf]), hbuf]
    rfl
  have hlast : receiveByte h3 { s with rxBuf := [h0, h1, h2] }
      = .ok (s.collecting [h0, h1, h2, h3] (headerLen h2 h3 + 2)) := by
    rw [receiveByte_sync (s := { s with rxBuf := [h0, h1, h2] }) hf hs]
    exact congrArg Except.ok (syncStep_header (s := { s with rxBuf := [h0, h1, h2, h3] }) rfl hvalid)
  calc receiveBytes ([h0, h1, h2] ++ [h3]) s
      = receiveBytes [h3] { s with rxBuf := [h0, h1, h2] } := receiveBytes_append_ok hthree
    _ = .ok (s.collecting [h0, h1, h2, h3] (headerLen h2 h3 + 2)) := receiveBytes_cons_ok hlast

/-- A valid header and fewer bytes than it announces are all kept. -/
theorem receiveBytes_incomplete {h0 h1 h2 h3 : Byte} {bs : List Byte} {s : State} (hr : RxReady s)
    (hvalid : hdrValid h1 h2 h3 = true) (hlen : bs.length < headerLen h2 h3 + 2) :
    receiveBytes ([h0, h1, h2, h3] ++ bs) s
      = .ok (s.collecting ([h0, h1, h2, h3] ++ bs) (headerLen h2 h3 + 2)) := by
  rw [receiveBytes_append_ok (receiveBytes_header hr hvalid)]
  exact receiveBytes_collecting hr.1 (show 4 + bs.length < 4 + (headerLen h2 h3 + 2) by omega)

/-- Before a candidate's last byte only the deframer has moved. -/
theorem receiveBytes_take_candidate {f : List Byte} {s : State} (hr : RxReady s) (hc : IsCandidate f) {k : Nat}
    (hk : k < f.length) :
    ∃ st buf need, receiveBytes (f.take k) s = .ok { s with rxState := st, rxBuf := buf, rxNeed := need } := by
  by_cases h4 : k < 4
  · obtain ⟨hf, hs, hbuf, -⟩ := hr
    have hshort : s.rxBuf.length + (f.take k).length < 4 := by
      rw [hbuf, List.length_nil, List.length_take]
      omega
    exact ⟨_, _, _, receiveBytes_short hf hs hshort⟩
  · obtain ⟨h0, h1, h2, h3, rest, rfl, hvalid, hrest⟩ := hc
    obtain ⟨j, rfl⟩ := Nat.exists_eq_add_of_le' (Nat.not_lt.mp h4)
    have hlen : (rest.take j).length < headerLen h2 h3 + 2 := by
      simp only [List.length_cons] at hk
      rw [List.length_take]
      omega
    exact ⟨_, _, _, receiveBytes_incomplete hr hvalid hlen⟩

/-- At a candidate's last byte the CRC decides, and the deframer is ready again (R108). -/
theorem receiveBytes_candidate {f : List Byte} {s : State} (hr : RxReady s) (hc : IsCandidate f) :
    receiveBytes f s = if candidateGood f then frameOk f s else frameBad s := by
  obtain ⟨h0, h1, h2, h3, rest, rfl, hvalid, hrest⟩ := hc
  obtain ⟨init, b, rfl⟩ := (List.eq_nil_or_concat' rest).resolve_left (by rintro rfl; simp at hrest)
  rw [List.length_append, List.length_singleton] at hrest
  have hinit := receiveBytes_incomplete (h0 := h0) (bs := init) hr hvalid (by omega)
  obtain ⟨hf, hs, hbuf, hneed⟩ := hr
  have hidle (buf : List Byte) (need : Nat) : (s.collecting buf need).rxIdle = s := by
    rw [State.rxIdle, ← hs, ← hbuf, ← hneed]
    rfl
  have hlast : receiveByte b (s.collecting ([h0, h1, h2, h3] ++ init) (headerLen h2 h3 + 2))
      = ploadStep (s.collecting ([h0, h1, h2, h3] ++ init ++ [b]) (headerLen h2 h3 + 2)) :=
    receiveByte_pload hf rfl
  have hfull : 4 + (headerLen h2 h3 + 2) ≤ ([h0, h1, h2, h3] ++ init ++ [b]).length := by
    simp
    omega
  calc receiveBytes ([h0, h1, h2, h3] ++ init ++ [b]) s
      = receiveBytes [b] (s.collecting ([h0, h1, h2, h3] ++ init) (headerLen h2 h3 + 2)) :=
        receiveBytes_append_ok hinit
    _ = ploadStep (s.collecting ([h0, h1, h2, h3] ++ init ++ [b]) (headerLen h2 h3 + 2)) := by
        rw [← hlast, receiveBytes]
        cases receiveByte b _ <;> rfl
    _ = _ := by
        rw [ploadStep_complete (s := s.collecting _ _) hfull, hidle]
        rfl

/-- An encoded frame reaches DISPATCH with its fields (R109, R112). -/
theorem receiveBytes_encodeFrame (q : Byte) (t : Tag) (rt : Bool) {p : List Byte} {s : State} (hr : RxReady s)
    (hp : p.length ≤ 256) : receiveBytes (encodeFrame q t rt p) s = dispatch q (tagByte t) rt p s := by
  rw [receiveBytes_candidate hr (isCandidate_encodeFrame q t rt hp), candidateGood_encode, if_pos rfl,
    frameOk_encode]

theorem receiveBytes_badCandidate {f : List Byte} {s : State} (hr : RxReady s) (hc : IsCandidate f)
    (hbad : candidateGood f = false) : receiveBytes f s = frameBad s := by
  rw [receiveBytes_candidate hr hc, hbad, if_neg Bool.false_ne_true]

/-! ### Streams (R111, R113) -/

/-- A chunk is received piece by piece, stops included. -/
theorem receiveBytes_append (a b : List Byte) (s : State) :
    receiveBytes (a ++ b) s = receiveBytes a s >>= receiveBytes b := by
  induction a generalizing s with
  | nil => rfl
  | cons x a ih =>
    rw [List.cons_append, receiveBytes, receiveBytes]
    cases receiveByte x s with
    | error e => rfl
    | ok t => exact ih t

/-- A mailbox frame with its sequence number and payload, as the wire carries it. -/
def mailboxFrame (m : Byte × List Byte) : List Byte := encodeFrame m.1 .mailbox false m.2

/-- What a mailbox frame puts out (R212). -/
def mailboxOutput (m : Byte × List Byte) : Output := .event (.mailbox m.2)

theorem RxReady.answers {s : State} (hr : RxReady s) (os : List Output) : RxReady (s.answers os) := hr

theorem RxReady.crcCounted {s : State} (hr : RxReady s) : RxReady s.crcCounted := hr

theorem receiveBytes_mailboxFrame {m : Byte × List Byte} {s : State} (hr : RxReady s) (hm : m.2.length ≤ 256) :
    receiveBytes (mailboxFrame m) s = .ok (s.answers [mailboxOutput m]) :=
  receiveBytes_encodeFrame m.1 .mailbox false hr hm

/-- Every mailbox frame of a stream is delivered, in order, and nothing else changes. -/
theorem receiveBytes_mailboxFrames {ms : List (Byte × List Byte)} {s : State} (hr : RxReady s)
    (hms : ∀ m ∈ ms, m.2.length ≤ 256) :
    receiveBytes (ms.flatMap mailboxFrame) s = .ok (s.answers (ms.map mailboxOutput)) := by
  induction ms generalizing s with
  | nil => simp [receiveBytes, State.answers]
  | cons m ms ih =>
    obtain ⟨hm, hrest⟩ := List.forall_mem_cons.mp hms
    rw [List.flatMap_cons, receiveBytes_append_ok (receiveBytes_mailboxFrame hr hm), ih (hr.answers _) hrest]
    simp [State.answers]

/-- One candidate with a bad CRC between mailbox frames costs one count and its event (R113). -/
theorem receiveBytes_corruptedStream {before after : List (Byte × List Byte)} {bad : List Byte} {s : State}
    (hr : RxReady s) (hw : window s = 0) (hbefore : ∀ m ∈ before, m.2.length ≤ 256)
    (hafter : ∀ m ∈ after, m.2.length ≤ 256) (hc : IsCandidate bad) (hbad : candidateGood bad = false) :
    receiveBytes (before.flatMap mailboxFrame ++ bad ++ after.flatMap mailboxFrame) s
      = .ok ((s.answers (before.map mailboxOutput)).crcCounted.answers (after.map mailboxOutput)) := by
  have hr' : RxReady (s.answers (before.map mailboxOutput)) := hr.answers _
  have hcost : receiveBytes bad (s.answers (before.map mailboxOutput)) = .ok _ :=
    (receiveBytes_badCandidate hr' hc hbad).trans (frameBad_of_window_zero hw)
  rw [List.append_assoc, receiveBytes_append_ok (receiveBytes_mailboxFrames hr hbefore),
    receiveBytes_append_ok hcost, receiveBytes_mailboxFrames hr'.crcCounted hafter]

end Sys2Proof.Machine
end

section
/-!
PROOFS. spec/40_frame_codec.md, its obligations.
-/

namespace Sys2Proof.Proofs

open Sys2Proof.Machine

/-- Settles O39: an encoded frame is a candidate whose CRC is good; before its last byte only the deframer moves. -/
theorem encodedFramesRoundTripThroughTheDeframer : Obligations.EncodedFramesRoundTripThroughTheDeframer := by
  intro seq tag rt p s hr hp
  refine ⟨?_, fun k hk => ?_⟩
  · rw [receiveBytes_encodeFrame seq tag rt hr hp, tagByte_eq_tagNumber]
  · exact receiveBytes_take_candidate hr (isCandidate_encodeFrame seq tag rt hp) (by simpa using hk)

/-- Settles O5: each byte's eight shifts on numbers, folded over the string; the two values by evaluation. -/
theorem crcFollowsItsRule : Obligations.CrcFollowsItsRule :=
  ⟨crc_toNat, rfl, by decide +kernel⟩

/-- Settles O6, from the header bytes and the CRC's two bytes as numbers. -/
theorem encodeLaysOutTheFrame : Obligations.EncodeLaysOutTheFrame := by
  intro seq tag rt p hp h
  refine ⟨?_, encodeFrame_length seq tag rt p⟩
  rw [encodeFrame, frameBody, frameHeader_eq seq tag rt hp, be16_eq]

/-- Settles O7, from the three tests of the header as numbers. -/
theorem headerTestIsTheRule : Obligations.HeaderTestIsTheRule := hdrValid_iff

/-- Settles O31: SYNC_STEP on the buffer with the new byte, case by case. -/
theorem syncByteFollowsItsRule : Obligations.SyncByteFollowsItsRule := by
  intro b s hf hs
  have hexec : exec (.rxByte b) s = .next (syncStep { s with rxBuf := s.rxBuf ++ [b] }) :=
    congrArg finish (receiveByte_sync hf hs)
  rw [hexec]
  refine ⟨fun hlen => ?_, fun h0 h1 h2 h3 rest hbuf => ⟨fun hvalid => ?_, fun hinvalid => ?_⟩⟩
  · rw [syncStep_short (by simp; omega)]
  · rw [syncStep_header hbuf ((hdrValid_iff h1 h2 h3).mpr hvalid), headerLen_eq]
  · rw [← hdrValid_iff, Bool.not_eq_true] at hinvalid
    rw [syncStep_slide hbuf hinvalid]

/-- Settles O32: PLOAD_STEP on the buffer with the new byte, case by case. -/
theorem payloadStepFollowsItsRule : Obligations.PayloadStepFollowsItsRule := by
  intro b s hf hs
  have hexec : exec (.rxByte b) s = finish (ploadStep { s with rxBuf := s.rxBuf ++ [b] }) :=
    congrArg finish (receiveByte_pload hf hs)
  rw [hexec]
  refine ⟨fun hlen => ?_, fun hlen => ?_⟩
  · rw [ploadStep_short (by simpa using hlen)]
    rfl
  · rw [ploadStep_complete (by simpa using hlen)]
    refine ⟨fun hcrc => ?_, fun hcrc => ?_⟩
    · rw [if_pos ((candidateGood_concat_iff s.rxBuf b).mpr hcrc), frameOk, candidateRt, rtBit_eq]
      rfl
    · rw [if_neg (mt (candidateGood_concat_iff s.rxBuf b).mp hcrc)]
      rfl

/-- Settles O33: FRAME_BAD on a state whose outstanding frames are in their slots. -/
theorem badFrameIsCountedAndRecovered : Obligations.BadFrameIsCountedAndRecovered := by
  intro b s hi hf hs hlen hbad
  have hstep : receiveByte b s = frameBad s.rxIdle := by
    rw [receiveByte_pload hf hs, ploadStep_complete (by simp; omega), if_neg (by simp [hbad])]
    rfl
  exact congrArg finish (hstep.trans (frameBad_eq fun q hq => (hi.store.1 q hq).1))

/-- Settles O40: a stop in the first chunk is a stop of both. -/
theorem chunksMayBeCutAnywhere : Obligations.ChunksMayBeCutAnywhere := by
  intro a b s
  have hpoll (bs : List Byte) (t : State) : exec (.poll bs) t = finish (receiveBytes bs t) := rfl
  simp only [hpoll, receiveBytes_append]
  cases receiveBytes a s <;> rfl

/-- Settles O41: the corrupted frame is a candidate with a bad CRC, and with nothing outstanding it costs one
count; the mailbox frames on both sides are delivered. -/
theorem oneCorruptedFrameCostsOneCount : Obligations.OneCorruptedFrameCostsOneCount := by
  intro before after bad q tag rt p s hr hw hms hp hlen hhdr hbad frame count
  obtain ⟨hbefore, hafter⟩ := List.forall_mem_append.mp hms
  have hcandidate : IsCandidate bad :=
    (isCandidate_encodeFrame q tag rt hp).of_sameHeader (by simpa using hlen) hhdr
  refine (congrArg finish (receiveBytes_corruptedStream hr hw hbefore hafter hcandidate hbad)).trans ?_
  simp only [State.answers, State.crcCounted, List.append_assoc]
  rfl

end Sys2Proof.Proofs
end

section
/-!
PROOFS. spec/41_batcher_shadow.md, the laws its statements need: the cases of QCMD, FLUSH and RDSH that the
laws of the records' obligations leave out.
-/

namespace Sys2Proof.Machine

theorem submit_of_blocked {p : List Byte} {reads : List ReadRec} {s : State} (h : SubmitBlocked s) :
    submit p reads s = none :=
  submit_eq_none.mpr h

/-- An accepted request's address is one of the 14-bit register space (R131). -/
theorem Accepted.addr_lt {r : Request} (ha : Accepted r) : r.addr.toNat < 16384 := by
  obtain ⟨hlen, hin, -⟩ := ha
  omega

/-! ### QCMD (R132) -/

theorem queueCommand_empty {r : Request} {s : State} (hf : s.fatal = false) (hn : r.len = 0) :
    queueCommand r s = s.answers [.result [0x00#8]] := by
  rw [queueCommand, if_neg (by simp [hf]), if_pos hn]
  rfl

/-- An accepted record that does not fit leaves the answer to SUBMIT of the frame before it (R132, R133). -/
theorem queueCommand_overflow {r : Request} {s : State} (hf : s.fatal = false) (ha : Accepted r)
    (hp : s.pendBytes ≠ []) (hfit : ¬ FitsPending r s) :
    queueCommand r s
      = (submit s.pendBytes s.pendReads s).elim (s.answers [.result [0x01#8]])
          fun sent => (sent.2.clearPending.queued r).answers [.result [0x00#8]] := by
  have hn : r.len ≠ 0 := Nat.one_le_iff_ne_zero.mp ha.1
  have hc : checkRequest r = .ok := (checkRequest_eq_ok hn).mpr ha
  have hfull : ¬ (s.pendBytes = [] ∨ fits r s = true) := by
    rw [fits_iff]
    exact not_or.mpr ⟨hp, hfit⟩
  rw [queueCommand, if_neg (by simp [hf]), if_neg hn, if_neg (by simp [hc]), if_neg hfull]
  cases submit s.pendBytes s.pendReads s with
  | none => rfl
  | some sent => exact congrArg (State.answers · _) (appendRecord_eq sent.2.clearPending ha.addr_lt)

/-- The implicit flush is turned away, and the record with it (R132, R162, R163). -/
theorem queueCommand_blocked {r : Request} {s : State} (hf : s.fatal = false) (ha : Accepted r)
    (hp : s.pendBytes ≠ []) (hfit : ¬ FitsPending r s) (hb : SubmitBlocked s) :
    queueCommand r s = s.answers [.result [0x01#8]] := by
  rw [queueCommand_overflow hf ha hp hfit, submit_of_blocked hb]
  rfl

/-- The implicit flush: the pending frame leaves and the record starts a fresh one (R132, R161). -/
theorem queueCommand_flushes {r : Request} {s : State} (hf : s.fatal = false) (ha : Accepted r)
    (hp : s.pendBytes ≠ []) (hfit : ¬ FitsPending r s) (hopen : ¬ SubmitBlocked s) :
    queueCommand r s
      = (((s.submitted s.pendBytes s.pendReads).unpended).queued r).answers [.result [0x00#8]] := by
  rw [queueCommand_overflow hf ha hp hfit, submit_of_open hopen]
  rfl

/-! ### FLUSH (R134) -/

theorem flushPending_fatal {s : State} (hf : s.fatal = true) :
    flushPending s = s.answers [.result [0x04#8]] := by
  rw [flushPending, if_pos hf]
  rfl

theorem flushPending_empty {s : State} (hf : s.fatal = false) (hp : s.pendBytes = []) :
    flushPending s = s.answers [.result [0x00#8]] := by
  rw [flushPending, if_neg (by simp [hf]), if_pos hp]
  rfl

theorem flushPending_blocked {s : State} (hf : s.fatal = false) (hp : s.pendBytes ≠ []) (hb : SubmitBlocked s) :
    flushPending s = s.answers [.result [0x01#8]] := by
  rw [flushPending, if_neg (by simp [hf]), if_neg hp, submit_of_blocked hb]
  rfl

/-! ### RDSH (R135) -/

theorem execRdsh_outside {addr n : Half} (s : State) (hout : 16384 < addr.toNat + n.toNat) :
    execRdsh addr n s = .next (s.answers [.result [0x02#8]]) :=
  if_pos hout

theorem execRdsh_inside {addr n : Half} (s : State) (hin : addr.toNat + n.toNat ≤ 16384) :
    execRdsh addr n s = .next (s.answers [.result (0x00#8 :: memRead s addr.toNat n.toNat)]) :=
  if_neg (Nat.not_lt.mpr hin)

end Sys2Proof.Machine
end

section
/-!
PROOFS. spec/41_batcher_shadow.md, its obligations.
-/

namespace Sys2Proof.Proofs

open Sys2Proof.Machine

/-- Settles O24: R132's tests in their order, then SUBMIT's two answers for a record that does not fit. -/
theorem qcmdFollowsItsRule : Obligations.QcmdFollowsItsRule := by
  intro r s
  have hexec : exec (.qcmd r) s = .next (queueCommand r s) := rfl
  rw [hexec]
  refine ⟨fun hf => ?_, fun hf hn => ?_, fun hf hn hout => ?_, fun hf hin hbig => ?_, fun hf ha hfit => ?_,
    fun hf ha hp hfit hb => ?_, fun hf ha hp hfit hopen => ?_⟩
  · rw [queueCommand_fatal r hf]
  · rw [queueCommand_empty hf hn]
  · rw [queueCommand_outOfRange hf hn hout]
  · rw [queueCommand_tooLarge hf hin hbig]
  · rw [queueCommand_fits hf ha hfit]
  · rw [queueCommand_blocked hf ha hp hfit hb]
  · rw [queueCommand_flushes hf ha hp hfit hopen]

/-- Settles O25: R134's tests in their order, then SUBMIT's two answers. -/
theorem flushFollowsItsRule : Obligations.FlushFollowsItsRule := by
  intro s
  have hexec : exec .flush s = .next (flushPending s) := rfl
  rw [hexec]
  refine ⟨fun hf => ?_, fun hf hp => ?_, fun hf hp hb => ?_, fun hf hp hopen => ?_⟩
  · rw [flushPending_fatal hf]
  · rw [flushPending_empty hf hp]
  · rw [flushPending_blocked hf hp hb]
  · rw [flushPending_open hf hp hopen]

/-- Settles O26: the bytes are MemRead's, one per address from addr on. -/
theorem rdshReadsTheShadow : Obligations.RdshReadsTheShadow := by
  intro addr n s
  refine ⟨execRdsh_outside s, fun hin => ?_⟩
  exact ⟨memRead s addr.toNat n.toNat, execRdsh_inside s hin, memRead_length s addr.toNat n.toNat,
    fun i hi => memRead_getElem? hi⟩

end Sys2Proof.Proofs
end

section
/-!
PROOFS. spec/42_arq.md, the laws its statements need: sequence distances seen from another base, what each
operation does to the window (R25, R172), RECOVER's three cases, and FRAME.ACK at a frame boundary.
-/

namespace Sys2Proof.Machine

/-! ### Distances from another base (R9) -/

/-- How far `c` is ahead of `b`, when both are counted from `a`. -/
theorem dist_rebase (a b c : Byte) : dist b c = (dist a c + 256 - dist a b) % 256 := by
  have := a.isLt; have := b.isLt; have := c.isLt
  rw [dist_eq, dist_eq, dist_eq]
  omega

theorem before_eq_false_iff_dist (a b : Byte) : before a b = false ↔ dist a b = 0 ∨ 127 < dist a b := by
  rw [← Bool.not_eq_true, before_iff_dist]
  omega

/-- R164's test as the signed comparison: counted from Sb, `r` is not before Sb at the distances 0 to 128,
and Sm is not before `r` at the distances up to `w` and those at least 128 beyond it. -/
theorem dist_le_iff_not_before {sb sm r : Byte} (h1 : 1 ≤ dist sb sm) (h64 : dist sb sm ≤ 64) :
    dist sb r ≤ dist sb sm ↔ before r sb = false ∧ before sm r = false := by
  have hr := dist_lt sb r
  have hback : dist r sb = (256 - dist sb r) % 256 := by rw [dist_rebase sb, dist_self, Nat.zero_add]
  have hpast := dist_rebase sb sm r
  rw [before_eq_false_iff_dist, before_eq_false_iff_dist, hback, hpast]
  omega

/-! ### The window's bound (R25, R172) -/

/-- An operation that takes `s` to `t` does not take the window above WINDOW_SIZE. -/
def KeepsWindow (s t : State) : Prop := window s ≤ 64 → window t ≤ 64

theorem keepsWindow_of_eq {s t : State} (hw : window t = window s) : KeepsWindow s t := fun h => hw ▸ h

theorem keepsWindow_answers (s : State) (os : List Output) : KeepsWindow s (s.answers os) :=
  keepsWindow_of_eq rfl

theorem KeepsWindow.trans {s t u : State} (h : KeepsWindow s t) (h' : KeepsWindow t u) : KeepsWindow s u :=
  fun hs => h' (h hs)

/-- SUBMIT takes a number more only below WINDOW_SIZE (R162). -/
theorem submit_keepsWindow {p : List Byte} {reads : List ReadRec} {s t : State} {q : Byte}
    (h : submit p reads s = some (q, t)) : KeepsWindow s t := by
  obtain ⟨hw, -, -, rfl⟩ := submit_eq_some h
  intro hle
  have hlt : dist s.sb s.sm < 64 := Nat.lt_of_le_of_ne hle hw
  change dist s.sb (s.sm + 1#8) ≤ 64
  rw [dist_succ (by omega)]
  exact hlt

theorem queueCommand_keepsWindow (r : Request) (s : State) : KeepsWindow s (queueCommand r s) := by
  rcases queueCommand_cases r s with ⟨-, h⟩ | ⟨-, -, h⟩ | ⟨-, -, -, h⟩ | ⟨-, -, -, h⟩ | ⟨-, -, -, -, -, h⟩
    | ⟨-, -, -, -, q, u, hu, h⟩ <;> rw [h]
  · exact keepsWindow_answers s _
  · exact keepsWindow_answers s _
  · exact keepsWindow_answers s _
  · exact keepsWindow_of_eq rfl
  · exact keepsWindow_answers s _
  · exact (submit_keepsWindow hu).trans (keepsWindow_of_eq rfl)

theorem flushPending_keepsWindow (s : State) : KeepsWindow s (flushPending s) := by
  rcases flushPending_cases s with ⟨-, h⟩ | ⟨-, -, h⟩ | ⟨-, -, -, h⟩ | ⟨-, -, q, u, hu, h⟩ <;> rw [h]
  · exact keepsWindow_answers s _
  · exact keepsWindow_answers s _
  · exact keepsWindow_answers s _
  · exact (submit_keepsWindow hu).trans (keepsWindow_of_eq rfl)

theorem submitRealtime_keepsWindow (rs : List Request) (s : State) : KeepsWindow s (submitRealtime rs s) := by
  rcases submitRealtime_cases rs s with ⟨-, h⟩ | ⟨-, c, -, h⟩ | ⟨-, p, -, -, h⟩ | ⟨-, p, -, -, h⟩ <;> rw [h]
  · exact keepsWindow_answers s _
  · exact keepsWindow_answers s _
  · exact keepsWindow_answers s _
  · exact keepsWindow_of_eq rfl

theorem transmitRealtime_keepsWindow (s : State) : KeepsWindow s (transmitRealtime s) := by
  rcases transmitRealtime_cases s with ⟨-, h⟩ | ⟨-, -, h⟩ <;> rw [h] <;> exact keepsWindow_of_eq rfl

theorem raiseFatal_keepsWindow (c : FatalCause) (s : State) : KeepsWindow s (raiseFatal c s) := by
  unfold raiseFatal
  split <;> exact keepsWindow_of_eq rfl

@[simp] theorem recovered_window (c : FatalCause) (s : State) : window (s.recovered c) = window s := by
  unfold State.recovered
  split
  · rfl
  · split <;> rfl

theorem recover_keepsWindow {t : Trigger} {s u : State} (h : recover t s = .ok u) : KeepsWindow s u := by
  rw [recover_ok h]
  exact keepsWindow_of_eq (recovered_window _ s)

/-- An advancing acknowledgement takes `dist(Sb, r)` numbers out of the window (R165); any other leaves it. -/
theorem onAck_keepsWindow {r : Byte} {s t : State} (h : onAck r s = .ok t) : KeepsWindow s t := by
  rcases onAck_ok h with ⟨-, rfl⟩ | ⟨-, rfl⟩ | ⟨-, hle, rfl⟩
  · exact keepsWindow_of_eq (recovered_window _ _)
  · exact keepsWindow_of_eq rfl
  · intro hs
    change dist r (freeSlots _ _ _).sm ≤ 64
    rw [freeSlots_sm, dist_shift hle]
    exact (Nat.sub_le _ _).trans hs

theorem ackIn_keepsWindow {r : Byte} {p : List Byte} {s t : State} (h : ackIn r p s = .ok t) : KeepsWindow s t := by
  obtain ⟨m, -, h, -⟩ := ackIn_ok h
  exact onAck_keepsWindow (s := { s with shadow := m }) h

theorem dispatch_keepsWindow {seq tag : Byte} {rt : Bool} {p : List Byte} {s t : State}
    (h : dispatch seq tag rt p s = .ok t) : KeepsWindow s t := by
  rcases dispatch_ok h with ⟨e, -, rfl⟩ | rfl | ⟨-, -, h⟩
  · exact keepsWindow_answers s _
  · exact keepsWindow_of_eq rfl
  · exact ackIn_keepsWindow h

theorem frameBad_keepsWindow {s t : State} (h : frameBad s = .ok t) : KeepsWindow s t := by
  rw [frameBad_eq_recover] at h
  exact recover_keepsWindow (s := s.crcCounted) h

theorem receiveByte_keepsWindow {b : Byte} {s t : State} (h : receiveByte b s = .ok t) : KeepsWindow s t := by
  rcases receiveByte_ok h with ⟨-, rfl⟩ | ⟨-, h⟩ | ⟨-, seq, tag, rt, p, h⟩ | ⟨-, h⟩
  · exact keepsWindow_of_eq rfl
  · rw [h]
    exact keepsWindow_of_eq rfl
  · exact dispatch_keepsWindow (s := s.rxIdle) h
  · exact frameBad_keepsWindow (s := s.rxIdle) h

theorem receiveBytes_keepsWindow {bs : List Byte} {s t : State} (h : receiveBytes bs s = .ok t) : KeepsWindow s t :=
  receiveBytes_keeps (P := KeepsWindow s) (fun _ _ _ hs hb => hs.trans (receiveByte_keepsWindow hb))
    (keepsWindow_of_eq rfl) h

/-- Both resets empty the window (R231, R280). -/
theorem channelReset_window (s : State) : window (channelReset s) = 0 := dist_self Config.initSeq

theorem keepsWindow_of_zero {s t : State} (hw : window t = 0) : KeepsWindow s t := fun _ => by
  rw [hw]
  exact Nat.zero_le 64

theorem next_keepsWindow {s u t : State} (hu : KeepsWindow s u)
    (h : (.next u : Host.Outcome State Fault Refusal) = .next t) : KeepsWindow s t := by
  cases h
  exact hu

theorem execRdsh_keepsWindow {a n : Half} {s t : State} (h : execRdsh a n s = .next t) : KeepsWindow s t := by
  unfold execRdsh at h
  split at h <;> cases h <;> exact keepsWindow_answers s _

theorem execTimeout_keepsWindow {s t : State} (h : execTimeout s = .next t) : KeepsWindow s t := by
  unfold execTimeout at h
  split at h
  · exact next_keepsWindow (keepsWindow_of_eq rfl) h
  · exact recover_keepsWindow (finish_eq_next h)

/-- No instruction takes the window above WINDOW_SIZE: the shared operation it runs does not. -/
theorem exec_keepsWindow {i : Instr} {s t : State} (h : exec i s = .next t) : KeepsWindow s t :=
  match i with
  | .qcmd _ | .readFifo _ _ | .readAi _ _ | .writeFifo _ _ | .writeAi _ _ | .wr _ _ | .rd _ _ | .push _ _ =>
    next_keepsWindow (queueCommand_keepsWindow _ s) h
  | .wrsync _ _ | .rdsync _ _ =>
    next_keepsWindow ((queueCommand_keepsWindow _ s).trans (flushPending_keepsWindow _)) h
  | .flush => next_keepsWindow (flushPending_keepsWindow s) h
  | .rdsh _ _ => execRdsh_keepsWindow h
  | .rtsub _ => next_keepsWindow (submitRealtime_keepsWindow _ s) h
  | .status | .illegal _ => next_keepsWindow (keepsWindow_answers s _) h
  | .rxByte _ => receiveByte_keepsWindow (finish_eq_next h)
  | .timeout => execTimeout_keepsWindow h
  | .ioerr => next_keepsWindow (raiseFatal_keepsWindow _ s) h
  | .txrt => next_keepsWindow (transmitRealtime_keepsWindow s) h
  | .chrst => next_keepsWindow ((keepsWindow_of_zero (channelReset_window s)).trans (keepsWindow_answers _ _)) h
  | .por => next_keepsWindow (keepsWindow_of_zero (channelReset_window _)) h
  | .frameCmd _ _ | .frameCmdRt _ _ | .frameAck _ _ | .frameMailbox _ _ | .frameRtResult _ _ _
  | .frameReserved _ _ _ _ | .poll _ => receiveBytes_keepsWindow (finish_eq_next h)

/-! ### RECOVER's cases (R168, R169) and TIMEOUT (R171) -/

theorem recovered_idle {s : State} (c : FatalCause) (h : s.fatal = true ∨ window s = 0) : s.recovered c = s := by
  rw [State.recovered, if_pos h]

theorem recovered_limit {s : State} (c : FatalCause) (hf : s.fatal = false) (hw : window s ≠ 0)
    (hlimit : s.params.maxRetx.toNat ≤ s.retxCount) :
    s.recovered c = { s with fatal := true, fatalCause := c }.answers
      [.event (.fatal c s.sb s.sm s.rn s.crcErrors s.retxCount)] := by
  rw [State.recovered, if_neg (by simp [hf, hw]), if_pos hlimit]
  rfl

theorem recovered_round {s : State} (c : FatalCause) (hf : s.fatal = false) (hw : window s ≠ 0)
    (hround : s.retxCount < s.params.maxRetx.toNat) :
    s.recovered c = { s with retxCount := s.retxCount + 1 }.answers (resendEvents s) := by
  rw [State.recovered, if_neg (by simp [hf, hw]), if_neg (Nat.not_le.mpr hround)]
  rfl

/-- TIMEOUT is RECOVER, FATAL included: there RECOVER does nothing either. -/
theorem exec_timeout_eq {s : State} (hs : StoreOk s) : exec .timeout s = .next (s.recovered .linkTimeout) := by
  have hrec : recover .timeout s = .ok (s.recovered .linkTimeout) :=
    recover_eq .timeout s fun q hq => (hs.1 q hq).1
  change execTimeout s = _
  unfold execTimeout
  split
  · next hf => rw [recovered_idle _ (.inl hf)]
  · rw [hrec]
    rfl

/-! ### FRAME.ACK at a frame boundary (R213) -/

theorem exec_frameAck_eq (r : Byte) {p : List Byte} {s : State} (hr : RxReady s) (hp : p.length ≤ 256) :
    exec (.frameAck r p) s = finish (ackIn r p s) :=
  congrArg finish (receiveBytes_encodeFrame r .ack false hr hp)

/-- An acknowledgement of no news drops its payload (R216). -/
theorem ackIn_noNews {r : Byte} {p : List Byte} {s : State} (h : dist s.sb r = 0 ∨ window s < dist s.sb r) :
    ackIn r p s = onAck r s := by
  have hno : ¬(1 ≤ dist s.sb r ∧ dist s.sb r ≤ window s) := by omega
  rw [ackIn, if_neg (by simp [ackCarriesData, hno])]

/-- Freeing slots writes the store and nothing else. -/
theorem freeSlots_frame (d : Nat) (q : Byte) (s : State) :
    freeSlots d q s = { s with store := (freeSlots d q s).store } := by
  induction d generalizing q s with
  | zero => rfl
  | succ d ih => exact ih (q + 1#8) (s.freeSlot q)

/-- What the store holds after slots are freed depends on the store alone. -/
theorem freeSlots_store_congr (d : Nat) (q : Byte) {s t : State} (h : s.store = t.store) :
    (freeSlots d q s).store = (freeSlots d q t).store := by
  induction d generalizing q s t with
  | zero => exact h
  | succ d ih =>
    refine ih (q + 1#8) ?_
    rw [State.freeSlot_eq, State.freeSlot_eq, State.setSlot_store, State.setSlot_store, State.slot, State.slot, h]

theorem freeSlots_store_acked {s : State} {r q : Byte} (h : dist s.sb q < dist s.sb r) :
    (freeSlots (dist s.sb r) s.sb s).store[slotIndex q] = { s.slot q with occupied := false } := by
  rw [freeSlots_store, if_pos ⟨dist s.sb q, h, by rw [add_dist]⟩]
  rfl

theorem freeSlots_store_kept {s : State} {r : Byte} {k : Fin Config.storeSize}
    (h : ∀ q, dist s.sb q < dist s.sb r → slotIndex q ≠ k) :
    (freeSlots (dist s.sb r) s.sb s).store[k] = s.store[k] := by
  rw [freeSlots_store, if_neg]
  rintro ⟨j, hj, he⟩
  have hj256 : j < 256 := hj.trans (dist_lt s.sb r)
  exact h _ (by rwa [dist_add _ _ hj256]) he

/-- An advancing acknowledgement frees the slots of Sb .. r - 1 and moves Sb and Rn (R165), after the shadow has
taken the read data where there is some (R213). -/
theorem ackIn_advance {r : Byte} (p : List Byte) {s : State} (hi : Inv s) (h1 : 1 ≤ dist s.sb r)
    (hw : dist s.sb r ≤ window s) :
    ∃ m, ackIn r p s = .ok { s with
      sb := r, rn := r, retxCount := 0, store := (freeSlots (dist s.sb r) s.sb s).store, shadow := m } := by
  obtain ⟨t, hack, -⟩ := ackIn_inv r p hi
  obtain ⟨m, -, hon, -⟩ := ackIn_ok hack
  refine ⟨m, hack.trans (hon.symm.trans ?_)⟩
  have hstore : (freeSlots (dist s.sb r) s.sb { s with rn := r, shadow := m }).store
      = (freeSlots (dist s.sb r) s.sb s).store := freeSlots_store_congr _ _ rfl
  rw [onAck_advance (s := { s with shadow := m }) h1 hw, ← hstore]
  exact congrArg (fun u : State => Except.ok { u with sb := r, retxCount := 0 }) (freeSlots_frame _ _ _)

end Sys2Proof.Machine
end

section
/-!
PROOFS. spec/42_arq.md, its obligations.
-/

namespace Sys2Proof.Proofs

open Sys2Proof.Machine

/-- Settles O9: both distances counted from Sb. -/
theorem acknowledgementTestIsTheSignedComparison : Obligations.AcknowledgementTestIsTheSignedComparison :=
  fun _ _ _ h1 h64 => dist_le_iff_not_before h1 h64

/-- Settles O15: SUBMIT turns the 65th frame away, and nothing else makes the window larger. -/
theorem windowNeverExceedsItsSize : Obligations.WindowNeverExceedsItsSize :=
  fun _ _ _ hw h => exec_keepsWindow h hw

/-- Settles O34: TIMEOUT is RECOVER, case by case. -/
theorem timeoutFollowsItsRule : Obligations.TimeoutFollowsItsRule := by
  intro s hs
  rw [exec_timeout_eq hs]
  refine ⟨fun hidle => ?_, fun hf hw hlimit => ?_, fun hf hw hround => ?_⟩
  · rw [recovered_idle _ hidle]
  · rw [recovered_limit _ hf hw hlimit]
  · rw [recovered_round _ hf hw hround]
    rfl

/-- Settles O46, with the store the loop of R164 leaves. -/
theorem acknowledgementAdvancesTheWindow : Obligations.AcknowledgementAdvancesTheWindow := by
  intro r p s hr hi hp h1 hw
  obtain ⟨m, hack⟩ := ackIn_advance p hi h1 hw
  refine ⟨(freeSlots (dist s.sb r) s.sb s).store, m, ?_, fun q hq => freeSlots_store_acked hq,
    fun k hk => freeSlots_store_kept hk⟩
  rw [exec_frameAck_eq r hr hp, hack]
  rfl

/-- Settles O49: the distance is 0, so the payload is dropped and ON_ACK writes Rn alone. -/
theorem duplicateAcknowledgementWritesRnOnly : Obligations.DuplicateAcknowledgementWritesRnOnly := by
  intro p s hr hp
  rw [exec_frameAck_eq s.sb hr hp, ackIn_noNews (.inl (dist_self s.sb)), onAck_duplicate rfl]
  rfl

/-- Settles O50: the payload is dropped, and RECOVER runs on the state with the new Rn. -/
theorem outOfOrderAcknowledgementRecovers : Obligations.OutOfOrderAcknowledgementRecovers := by
  intro r p s hr hs hp hbeyond
  have hocc : ∀ q, outstanding { s with rn := r } q = true → (State.slot { s with rn := r } q).occupied = true :=
    fun q hq => (hs.1 q hq).1
  rw [exec_frameAck_eq r hr hp, ackIn_noNews (.inr hbeyond), onAck_outOfOrder hbeyond, recover_eq _ _ hocc]
  rfl

/-- Settles O16: by R27 the one slot holds both numbers. -/
theorem outstandingFramesSitInSlotsOfTheirOwn : Obligations.OutstandingFramesSitInSlotsOfTheirOwn :=
  fun _ _ _ _ hs hq hq' he => eq_of_slotIndex hs hq hq' he

end Sys2Proof.Proofs
end

section
/-!
PROOFS. spec/43_realtime.md, the laws its statements need: the payload an RTSUB builds from its records, the
cases of RTSUB and TXRT, and the three fields the realtime path writes.
-/

namespace Sys2Proof.Machine

/-! ### CHECK's code for a record it turns away (R131) -/

theorem checkRequest_eq_addressOutOfRange_iff (r : Request) :
    checkRequest r = .addressOutOfRange ↔ 16384 < r.addr.toNat + r.len := by
  unfold checkRequest check
  split
  · next hout => exact iff_of_true rfl hout
  · next hin =>
    refine iff_of_false ?_ hin
    split
    · exact nofun
    · split <;> exact nofun

theorem checkRequest_ne_ok {r : Request} (hn : r.len ≠ 0) (ha : ¬ Accepted r) : checkRequest r ≠ .ok :=
  mt (checkRequest_eq_ok hn).mp ha

/-- A record turned away is outside the register space, or too large for a frame. -/
theorem codeByte_checkRequest_rejected {r : Request} (hn : r.len ≠ 0) (ha : ¬ Accepted r) :
    codeByte (checkRequest r) = if 16384 < r.addr.toNat + r.len then 0x02#8 else 0x03#8 := by
  rw [← if_congr (checkRequest_eq_addressOutOfRange_iff r) rfl rfl]
  rcases check_ne_ok (r := r) with hc | hc | hc
  · exact absurd hc (checkRequest_ne_ok hn ha)
  · rw [hc]; rfl
  · rw [hc]; rfl

/-! ### The payload of an RTSUB (R191) -/

theorem rtPayload_cons_empty {r : Request} (rs : List Request) (hn : r.len = 0) :
    rtPayload (r :: rs) = rtPayload rs := by
  rw [rtPayload, if_pos hn]

theorem rtPayload_cons_accepted {r : Request} (rs : List Request) (ha : Accepted r) :
    rtPayload (r :: rs) = (rtPayload rs).map (recordOf r ++ ·) := by
  have hn : r.len ≠ 0 := Nat.one_le_iff_ne_zero.mp ha.1
  rw [rtPayload, if_neg hn, (checkRequest_eq_ok hn).mpr ha, ← recordBytes_eq ha.addr_lt]
  cases rtPayload rs <;> rfl

theorem rtPayload_cons_rejected {r : Request} (rs : List Request) (hn : r.len ≠ 0) (ha : ¬ Accepted r) :
    rtPayload (r :: rs) = .error (checkRequest r) := by
  have hc := checkRequest_ne_ok hn ha
  rw [rtPayload, if_neg hn]
  split
  · next hok => exact absurd hok hc
  · rfl

theorem realtimeRecords_cons_empty {r : Request} (rs : List Request) (hn : r.len = 0) :
    realtimeRecords (r :: rs) = realtimeRecords rs := by
  simp [realtimeRecords, hn]

theorem realtimeRecords_cons_nonempty {r : Request} (rs : List Request) (hn : r.len ≠ 0) :
    realtimeRecords (r :: rs) = recordOf r ++ realtimeRecords rs := by
  simp [realtimeRecords, hn]

/-- Records that pass come first in the payload, and the rest of the list decides whether there is one. -/
theorem rtPayload_append {before : List Request} (rest : List Request)
    (hpass : ∀ x ∈ before, x.len = 0 ∨ Accepted x) :
    rtPayload (before ++ rest) = (rtPayload rest).map (realtimeRecords before ++ ·) := by
  induction before with
  | nil => cases h : rtPayload rest <;> exact h
  | cons r rs ih =>
    obtain ⟨hr, hrs⟩ := List.forall_mem_cons.mp hpass
    rw [List.cons_append]
    rcases hr with hn | ha
    · rw [rtPayload_cons_empty _ hn, realtimeRecords_cons_empty _ hn, ih hrs]
    · rw [rtPayload_cons_accepted _ ha, realtimeRecords_cons_nonempty _ (Nat.one_le_iff_ne_zero.mp ha.1), ih hrs]
      cases rtPayload rest <;> simp [Except.map]

theorem rtPayload_accepted {rs : List Request} (hpass : ∀ x ∈ rs, x.len = 0 ∨ Accepted x) :
    rtPayload rs = .ok (realtimeRecords rs) := by
  simpa [rtPayload, Except.map] using rtPayload_append [] hpass

theorem rtPayload_firstRejected {before : List Request} {r : Request} (after : List Request)
    (hpass : ∀ x ∈ before, x.len = 0 ∨ Accepted x) (hn : r.len ≠ 0) (ha : ¬ Accepted r) :
    rtPayload (before ++ r :: after) = .error (checkRequest r) := by
  rw [rtPayload_append _ hpass, rtPayload_cons_rejected _ hn ha]
  rfl

/-! ### RTSUB (R191) -/

/-- What RTSUB leaves when it answers OK: the frame of payload `p` in the slot, waiting. -/
def State.realtimeFilled (s : State) (p : List Byte) : State :=
  { s with rtFrame := encodeFrame s.params.rtSeq .cmd true p, rtPending := true }.answers [.result [0x00#8]]

theorem exec_rtsub_fatal (rs : List Request) {s : State} (hf : s.fatal = true) :
    exec (.rtsub rs) s = .next (s.answers [.result [0x04#8]]) :=
  congrArg Host.Outcome.next (if_pos hf)

theorem exec_rtsub_eq (rs : List Request) (s : State) : exec (.rtsub rs) s = .next (submitRealtime rs s) := rfl

theorem exec_rtsub_rejected {rs : List Request} {c : ResultCode} {s : State} (hf : s.fatal = false)
    (hc : rtPayload rs = .error c) : exec (.rtsub rs) s = .next (s.answers [.result [codeByte c]]) := by
  rw [exec_rtsub_eq, submitRealtime, if_neg (by simp [hf]), hc]
  rfl

theorem exec_rtsub_tooLarge {rs : List Request} {p : List Byte} {s : State} (hf : s.fatal = false)
    (hp : rtPayload rs = .ok p) (hlen : 256 < p.length) :
    exec (.rtsub rs) s = .next (s.answers [.result [0x03#8]]) := by
  rw [exec_rtsub_eq, submitRealtime, if_neg (by simp [hf]), hp]
  exact congrArg Host.Outcome.next (if_pos hlen)

theorem exec_rtsub_filled {rs : List Request} {p : List Byte} {s : State} (hf : s.fatal = false)
    (hp : rtPayload rs = .ok p) (hlen : p.length ≤ 256) :
    exec (.rtsub rs) s = .next (s.realtimeFilled p) := by
  rw [exec_rtsub_eq, submitRealtime, if_neg (by simp [hf]), hp]
  exact congrArg Host.Outcome.next (if_neg (Nat.not_lt.mpr hlen))

/-! ### TXRT (R192) -/

/-- What an enabled TXRT leaves: the slot's frame on the wire, nothing waiting. -/
def State.realtimeSent (s : State) : State :=
  { s with rtPending := false }.answers [.event (.tx s.rtFrame)]

theorem exec_txrt_enabled {s : State} (hf : s.fatal = false) (hp : s.rtPending = true) :
    exec .txrt s = .next s.realtimeSent :=
  congrArg Host.Outcome.next (if_neg (by simp [hf, hp]))

theorem exec_txrt_disabled {s : State} (h : s.fatal = true ∨ s.rtPending = false) : exec .txrt s = .next s :=
  congrArg Host.Outcome.next (if_pos h)

/-! ### What the realtime path writes (R190) -/

/-- `t` is `s` but for the realtime slot, its flag and the outputs. -/
def RealtimeOnly (s t : State) : Prop :=
  ∃ frame pending history, t = { s with rtFrame := frame, rtPending := pending, history := history }

theorem submitRealtime_realtimeOnly (rs : List Request) (s : State) : RealtimeOnly s (submitRealtime rs s) := by
  rcases submitRealtime_cases rs s with ⟨-, h⟩ | ⟨-, c, -, h⟩ | ⟨-, p, -, -, h⟩ | ⟨-, p, -, -, h⟩ <;>
    exact ⟨_, _, _, h⟩

theorem transmitRealtime_realtimeOnly (s : State) : RealtimeOnly s (transmitRealtime s) := by
  rcases transmitRealtime_cases s with ⟨-, h⟩ | ⟨-, -, h⟩ <;> exact ⟨_, _, _, h⟩

end Sys2Proof.Machine
end

section
/-!
PROOFS. spec/43_realtime.md, its obligations.
-/

namespace Sys2Proof.Proofs

open Sys2Proof.Machine

/-- Settles O27: R191's tests in their order; the records that pass make up the payload. -/
theorem rtsubFollowsItsRule : Obligations.RtsubFollowsItsRule := by
  intro rs s
  refine ⟨exec_rtsub_fatal rs, ?_, fun hf hpass hlen => ?_, fun hf hpass hlen => ?_⟩
  · rintro before r after rfl hpass hf hn ha
    rw [exec_rtsub_rejected hf (rtPayload_firstRejected after hpass hn ha), codeByte_checkRequest_rejected hn ha]
  · exact exec_rtsub_tooLarge hf (rtPayload_accepted hpass) hlen
  · exact exec_rtsub_filled hf (rtPayload_accepted hpass) hlen

/-- Settles O51: the second RTSUB overwrites the slot, and the TXRT leaves nothing waiting. -/
theorem latestRealtimeFrameOverwritesEarliest : Obligations.LatestRealtimeFrameOverwritesEarliest := by
  intro a b pa pb s hf ha hla hb hlb
  refine ⟨s.realtimeFilled pa, (s.realtimeFilled pa).realtimeFilled pb,
    ((s.realtimeFilled pa).realtimeFilled pb).realtimeSent, exec_rtsub_filled hf ha hla,
    exec_rtsub_filled hf hb hlb, exec_txrt_enabled hf rfl, ?_, exec_txrt_disabled (.inr rfl)⟩
  simp [State.realtimeFilled, State.realtimeSent, State.answers]

/-- Settles O52: both operations write the realtime slot, its flag and the outputs only. -/
theorem realtimePathLeavesTheBulkPathAlone : Obligations.RealtimePathLeavesTheBulkPathAlone := by
  intro s t i hi h
  have honly : RealtimeOnly s t := by
    cases i with
    | rtsub rs => cases h; exact submitRealtime_realtimeOnly rs s
    | txrt => cases h; exact transmitRealtime_realtimeOnly s
    | _ => exact hi.elim
  obtain ⟨frame, pending, history, rfl⟩ := honly
  exact ⟨rfl, rfl, rfl, rfl, rfl, rfl, rfl, rfl, rfl, rfl, rfl, rfl, rfl, rfl, rfl, fun _ => rfl⟩

/-- Settles O36: TXRT looks at the mode and the flag, never at the window. -/
theorem txrtSendsTheRealtimeFrame : Obligations.TxrtSendsTheRealtimeFrame :=
  fun _ => ⟨exec_txrt_enabled, exec_txrt_disabled⟩

end Sys2Proof.Proofs
end

section
/-!
PROOFS. spec/44_dispatch.md, the laws its statements need: DISPATCH by RT bit and tag, where the read data of an
acknowledgement goes, and what the shadow reads once it is there.
-/

namespace Sys2Proof.Machine

/-! ### DISPATCH, case by case (R210) -/

/-- The RT bit is tested before the tag (R211). -/
theorem dispatch_realtime (seq tag : Byte) (p : List Byte) (s : State) :
    dispatch seq tag true p s = .ok (s.answers [.event (.rtResult p)]) := rfl

/-- A command frame asks nothing of the block (R217). -/
theorem dispatch_command (seq : Byte) (p : List Byte) (s : State) :
    dispatch seq (tagByte .cmd) false p s = .ok s := rfl

/-- A frame with RT = 1 at a frame boundary, whatever its tag. -/
theorem receiveBytes_realtimeFrame (seq : Byte) (tag : Tag) {p : List Byte} {s : State} (hr : RxReady s)
    (hp : p.length ≤ 256) :
    receiveBytes (encodeFrame seq tag true p) s = .ok (s.answers [.event (.rtResult p)]) := by
  rw [receiveBytes_encodeFrame seq tag true hr hp, dispatch_realtime]

/-! ### Bytes placed at addresses in order -/

/-- Addresses and bytes may be cut at the same place. -/
theorem placed_append {ts us : List Nat} {p q : List Byte} (h : ts.length = p.length) (a : Nat) (v : Byte) :
    placed (ts ++ us) (p ++ q) a v = placed us q a (placed ts p a v) := by
  rw [placed, List.zip_append h, List.foldl_append]
  rfl

theorem placed_concat {ts : List Nat} {p : List Byte} (h : ts.length = p.length) (x : Nat) (b : Byte) (a : Nat)
    (v : Byte) : placed (ts ++ [x]) (p ++ [b]) a v = if x = a then b else placed ts p a v :=
  placed_append h a v

/-- An address that is no target reads as before. -/
theorem placed_of_not_mem {ts : List Nat} (p : List Byte) {a : Nat} (v : Byte) (h : a ∉ ts) :
    placed ts p a v = v := by
  induction ts generalizing p with
  | nil => rfl
  | cons x ts ih =>
    obtain ⟨hx, hts⟩ := List.ne_and_not_mem_of_not_mem_cons h
    cases p with
    | nil => rfl
    | cons b p =>
      calc placed (x :: ts) (b :: p) a v
          = placed ts p a (if x = a then b else v) := rfl
        _ = v := by rw [if_neg (Ne.symm hx), ih p hts]

/-- Rising addresses: byte `i` is read at `base + i` (R138, mode AI). -/
theorem placed_rising (base : Nat) (p : List Byte) (a : Nat) (v : Byte) :
    placed ((List.range p.length).map (base + ·)) p a v
      = if base ≤ a ∧ a < base + p.length then p.getD (a - base) 0x00#8 else v := by
  induction p using List.reverseRecOn with
  | nil => exact (if_neg (by simp)).symm
  | append_singleton p b ih =>
    rw [List.length_append, List.length_singleton, List.range_succ, List.map_append, List.map_singleton,
      placed_concat (by simp), ih]
    by_cases hlast : base + p.length = a
    · subst hlast
      simp
    · rw [if_neg hlast]
      by_cases hin : base ≤ a ∧ a < base + p.length
      · rw [if_pos hin, if_pos (by omega), List.getD_append _ _ _ _ (by omega)]
      · rw [if_neg hin, if_neg (by omega)]

/-- One address for all bytes: it reads the last of them (R138, mode FIFO). -/
theorem placed_same (base : Nat) {p : List Byte} (hp : p ≠ []) (a : Nat) (v : Byte) :
    placed ((List.range p.length).map fun _ => base) p a v
      = if a = base then p.getD (p.length - 1) 0x00#8 else v := by
  obtain ⟨q, b, rfl⟩ := (List.eq_nil_or_concat' p).resolve_left hp
  by_cases ha : a = base
  · rw [if_pos ha, List.length_append, List.length_singleton, List.range_succ, List.map_append, List.map_singleton,
      placed_concat (by simp), if_pos ha.symm]
    simp
  · rw [if_neg ha, placed_of_not_mem _ _ (by simp [ha])]

/-! ### The targets of a READ list (R214) -/

theorem readTargets_cons (r : ReadRec) (rs : List ReadRec) :
    readTargets (r :: rs) = (List.range r.n).map (effectiveAddr r.mode r.addr) ++ readTargets rs := rfl

theorem readTargets_singleton (r : ReadRec) :
    readTargets [r] = (List.range r.n).map (effectiveAddr r.mode r.addr) := List.append_nil _

theorem readTotal_cons (r : ReadRec) (rs : List ReadRec) : readTotal (r :: rs) = r.n + readTotal rs := rfl

theorem readTotal_singleton (r : ReadRec) : readTotal [r] = r.n := Nat.add_zero r.n

/-! ### What the shadow reads after a fill (R214, R215) -/

/-- The bytes of a record go to its addresses from the `i`-th on. -/
theorem fillRecord_read {m : Mode} {a : RegAddr} {i : Nat} {bs : List Byte} {s t : State}
    (h : fillRecord m a i bs s = .ok t) (hm : Memory.wf s.shadow) (x : Nat) :
    t.shadow.read x = placed ((List.range' i bs.length).map (effectiveAddr m a)) bs x (s.shadow.read x) := by
  induction bs generalizing i s with
  | nil => cases h; rfl
  | cons b bs ih =>
    rw [fillRecord] at h
    rcases hw : memWrite (effectiveAddr m a i) b s with e | s'
    · rw [hw] at h; cases h
    · rw [hw] at h
      obtain ⟨ha, rfl⟩ := memWrite_ok hw
      rw [ih h (Memory.wf_write hm ha), Memory.read_write hm.1, if_congr eq_comm rfl rfl]
      rfl

/-- SHADOW_FILL with as many bytes as the READ list asks for: each address reads the last byte placed there. -/
theorem shadowFill_read {rs : List ReadRec} {p : List Byte} {s t : State} (h : shadowFill rs p s = .ok t)
    (hm : Memory.wf s.shadow) (hlen : p.length = readTotal rs) (x : Nat) :
    t.shadow.read x = placed (readTargets rs) p x (s.shadow.read x) := by
  induction rs generalizing p s with
  | nil => cases h; rfl
  | cons r rs ih =>
    rw [readTotal_cons] at hlen
    have htake : (p.take r.n).length = r.n := by rw [List.length_take]; omega
    have hdrop : (p.drop r.n).length = readTotal rs := by rw [List.length_drop]; omega
    rw [shadowFill] at h
    rcases hw : fillRecord r.mode r.addr 0 (p.take r.n) s with e | s'
    · rw [hw] at h; cases h
    · rw [hw] at h
      have hrec := fillRecord_read hw hm x
      rw [htake, ← List.range_eq_range'] at hrec
      calc t.shadow.read x
          = placed (readTargets rs) (p.drop r.n) x (s'.shadow.read x) := ih h ((fillRecord_ok hw).2 hm) hdrop
        _ = placed (readTargets (r :: rs)) (p.take r.n ++ p.drop r.n) x (s.shadow.read x) := by
          rw [readTargets_cons, placed_append (by simp [htake]), hrec]
        _ = placed (readTargets (r :: rs)) p x (s.shadow.read x) := by rw [List.take_append_drop]

/-! ### The read data of an advancing acknowledgement (R213, R216) -/

/-- The newest frame acknowledged was outstanding. -/
theorem outstanding_newestAcked {r : Byte} {s : State} (h1 : 1 ≤ dist s.sb r) (hw : dist s.sb r ≤ window s) :
    outstanding s (r - 1#8) = true := by
  have hprev : dist s.sb (r - 1#8) = dist s.sb r - 1 := by
    unfold dist at h1 ⊢
    bv_omega
  rw [outstanding_iff]
  omega

/-- The READ list of the newest frame acknowledged is one of the batcher's. -/
theorem newestAcked_reads {r : Byte} {s : State} (hi : Inv s) (h1 : 1 ≤ dist s.sb r) (hw : dist s.sb r ≤ window s) :
    ReadsOk (s.slot (r - 1#8)).reads :=
  (hi.slots _ (hi.store.1 _ (outstanding_newestAcked h1 hw)).1).2

/-- R27 leaves the length test to decide whether there is read data. -/
theorem ackCarriesData_advance {r : Byte} (p : List Byte) {s : State} (hs : StoreOk s) (h1 : 1 ≤ dist s.sb r)
    (hw : dist s.sb r ≤ window s) :
    ackCarriesData r p s = decide (p.length = readTotal (s.slot (r - 1#8)).reads) := by
  obtain ⟨hocc, hseq⟩ := hs.1 _ (outstanding_newestAcked h1 hw)
  simp [ackCarriesData, h1, hw, hocc, hseq, Bool.beq_eq_decide_eq]

/-- An advancing ON_ACK leaves the shadow as it finds it. -/
theorem onAck_advance_shadow {r : Byte} {s t : State} (h1 : 1 ≤ dist s.sb r) (hw : dist s.sb r ≤ window s)
    (h : onAck r s = .ok t) : t.shadow = s.shadow := by
  rw [onAck_advance h1 hw] at h
  cases h
  exact freeSlots_shadow _ _ _

/-- ACK_IN fills the shadow first and applies the acknowledgement second. -/
theorem ackIn_carriesData {r : Byte} {p : List Byte} {s u : State} (hc : ackCarriesData r p s = true)
    (hu : shadowFill (s.slot (r - 1#8)).reads p s = .ok u) : ackIn r p s = onAck r { s with shadow := u.shadow } := by
  rw [ackIn, if_pos hc, hu, ← (shadowFill_ok hu).1]

/-- What the shadow reads after an advancing acknowledgement. -/
theorem ackIn_advance_read {r : Byte} {p : List Byte} {s t : State} (hi : Inv s) (h1 : 1 ≤ dist s.sb r)
    (hw : dist s.sb r ≤ window s) (h : ackIn r p s = .ok t) (a : Nat) :
    t.shadow.read a
      = if p.length = readTotal (s.slot (r - 1#8)).reads then
          placed (readTargets (s.slot (r - 1#8)).reads) p a (s.shadow.read a)
        else s.shadow.read a := by
  have hcarries := ackCarriesData_advance p hi.store h1 hw
  split
  · next hlen =>
    obtain ⟨u, hu⟩ := shadowFill_complete (p := p) (s := s)
      fun x hx => ((newestAcked_reads hi h1 hw).1 x hx).2.2
    rw [ackIn_carriesData (by simp [hcarries, hlen]) hu] at h
    rw [onAck_advance_shadow (s := { s with shadow := u.shadow }) h1 hw h]
    exact shadowFill_read hu hi.shadow hlen a
  · next hlen =>
    rw [ackIn, if_neg (by simp [hcarries, hlen])] at h
    rw [onAck_advance_shadow h1 hw h]

end Sys2Proof.Machine
end

section
/-!
PROOFS. spec/44_dispatch.md, its obligations.
-/

namespace Sys2Proof.Proofs

open Sys2Proof.Machine

/-- Settles O42: the frame's bytes reach DISPATCH, which emits MAILBOX. -/
theorem mailboxFrameIsPassedOn : Obligations.MailboxFrameIsPassedOn :=
  fun seq p _ hr hp => congrArg finish (receiveBytes_mailboxFrame (m := (seq, p)) hr hp)

/-- Settles O43: with RT = 1 DISPATCH never looks at the tag. -/
theorem realtimeFrameIsPassedOn : Obligations.RealtimeFrameIsPassedOn :=
  fun tag seq _ _ hr hp =>
    ⟨congrArg finish (receiveBytes_realtimeFrame seq tag hr hp),
      congrArg finish (receiveBytes_realtimeFrame seq .cmd hr hp)⟩

/-- Settles O44: the frame's bytes reach DISPATCH, which has nothing to do. -/
theorem inboundCommandFrameIsDropped : Obligations.InboundCommandFrameIsDropped := by
  intro seq p s hr hp
  calc exec (.frameCmd seq p) s
      = finish (receiveBytes (encodeFrame seq .cmd false p) s) := rfl
    _ = .next s := by rw [receiveBytes_encodeFrame seq .cmd false hr hp, dispatch_command]; rfl

/-- Settles O47: the fill is a fold over the targets, and the acknowledgement after it leaves the shadow alone. -/
theorem acknowledgedReadDataReachesTheShadow : Obligations.AcknowledgedReadDataReachesTheShadow := by
  intro r p s hr hi hp h1 hw
  obtain ⟨t, hack, -⟩ := ackIn_inv r p hi
  refine ⟨t, ?_, ackIn_advance_read hi h1 hw hack⟩
  rw [exec_frameAck_eq r hr hp, hack]
  rfl

/-- Settles O48 from O47: a record of the batcher reads 1 to 256 bytes, so the payload is neither empty nor too
long. -/
theorem readDataLandsByMode : Obligations.ReadDataLandsByMode := by
  intro r p s m addr hr hi h1 hw hreads
  have hok := newestAcked_reads hi h1 hw
  rw [hreads] at hok
  obtain ⟨hpos, hmax, -⟩ := hok.1 _ (List.mem_singleton_self _)
  obtain ⟨t, hexec, hread⟩ := acknowledgedReadDataReachesTheShadow r p s hr hi hmax h1 hw
  have hplaced (a : Nat) : t.shadow.read a
      = placed ((List.range p.length).map (effectiveAddr m addr)) p a (s.shadow.read a) := by
    rw [hread a, hreads, readTargets_singleton, readTotal_singleton, if_pos rfl]
  refine ⟨t, hexec, ?_⟩
  cases m with
  | ai => exact fun a => (hplaced a).trans (placed_rising addr.toNat p a _)
  | fifo => exact fun a => (hplaced a).trans (placed_same addr.toNat (List.ne_nil_of_length_pos hpos) a _)

end Sys2Proof.Proofs
end

section
/-!
PROOFS. spec/45_control.md, the laws its statements need: the STATUS read-out's bytes and flag bits as numbers,
and the step that takes an illegal host word.
-/

namespace Sys2Proof.Machine

/-! ### The STATUS read-out as numbers (R88, R232) -/

/-- Both bytes of a count's low 16 bits, however large the count is. -/
theorem be16_ofNat (n : Nat) : be16 (BitVec.ofNat 16 n) = [BitVec.ofNat 8 (n / 256), BitVec.ofNat 8 (n % 256)] := by
  have hhigh : BitVec.ofNat 8 (n % 65536 / 256) = BitVec.ofNat 8 (n / 256) := by
    apply BitVec.eq_of_toNat_eq
    simp only [BitVec.toNat_ofNat]
    omega
  have hlow : n % 65536 % 256 = n % 256 := by omega
  rw [be16_eq, BitVec.toNat_ofNat, hhigh, hlow]

/-- The eight bits from bit `start` up, as the field's number shifted down. -/
theorem extractLsb'_byte {w : Nat} (v : BitVec w) (start : Nat) :
    v.extractLsb' start 8 = BitVec.ofNat 8 (v.toNat / 2 ^ start % 256) := by
  apply BitVec.eq_of_toNat_eq
  rw [BitVec.extractLsb'_toNat, BitVec.toNat_ofNat, Nat.shiftRight_eq_div_pow]
  omega

/-- A 32-bit field's bytes as numbers, the most significant one first (R55). -/
theorem be32_eq (v : Count) :
    be32 v = [BitVec.ofNat 8 (v.toNat / 16777216), BitVec.ofNat 8 (v.toNat / 65536 % 256),
      BitVec.ofNat 8 (v.toNat / 256 % 256), BitVec.ofNat 8 (v.toNat % 256)] := by
  have htop : v.toNat / 16777216 % 256 = v.toNat / 16777216 := by omega
  simp only [be32, extractLsb'_byte, Nat.reducePow, Nat.div_one, htop]

/-- Four flag bits side by side add up to their weights. -/
theorem flagBits_eq (a b c d : Bool) :
    flagBit a 0 ||| flagBit b 1 ||| flagBit c 2 ||| flagBit d 3
      = BitVec.ofNat 8 (a.toNat + 2 * b.toNat + 4 * c.toNat + 8 * d.toNat) := by
  revert a b c d
  decide

/-- R34 on numbers. -/
theorem linkDegraded_eq (s : State) :
    linkDegraded s = decide (s.params.crcHealthThreshold.toNat ≤ s.crcErrors.toNat) := rfl

theorem statusFlags_eq (s : State) :
    statusFlags s = BitVec.ofNat 8 (s.fatal.toNat + 2 * (decide (s.rxState = .ploadCrc)).toNat + 4 * s.rtPending.toNat
      + 8 * (decide (s.params.crcHealthThreshold.toNat ≤ s.crcErrors.toNat)).toNat) := by
  rw [statusFlags, flagBits_eq, linkDegraded_eq]

theorem exec_status_eq (s : State) :
    exec .status s = .next (s.answers [.result (0x00#8 :: statusBytes s)]) := rfl

/-! ### The illegal host word (R89, R234) -/

theorem exec_illegal_eq (w : List Byte) (s : State) :
    exec (.illegal w) s = .next (s.answers [.result [0x05#8]]) := rfl

/-- A step that takes a host word runs the word's instruction on the state without it (R60, R82). -/
theorem step_host {w : List Byte} {rest : List Input} {s : State} (h : s.inputs = .host w :: rest) :
    step s = exec (decodeHostWord w) { s with inputs := rest } := by
  rw [step, h]
  rfl

end Sys2Proof.Machine
end

section
/-!
PROOFS. spec/45_control.md, its obligations.
-/

namespace Sys2Proof.Proofs

open Sys2Proof.Machine

/-- Settles O29, field by field: the window as a distance, the counter and the pending counts by their bytes, and
the flag byte by its weights. -/
theorem statusReportsTheState : Obligations.StatusReportsTheState := by
  intro s
  rw [exec_status_eq, statusBytes, window, dist_eq, be32_eq, statusFlags_eq, be16_ofNat, be16_ofNat]
  rfl

/-- Settles O30: the decoder answers ILLEGAL for an illegal word, and ILLEGAL only adds its result. -/
theorem illegalWordsAnswerIllegalOp : Obligations.IllegalWordsAnswerIllegalOp := by
  refine ⟨exec_illegal_eq, fun w rest s hillegal hin => ?_⟩
  rw [step_host hin, decodeHostWord_of_illegal hillegal, exec_illegal_eq]
  rfl

/-- Settles O28: CHRST is the channel reset and then its result; every field is the reset's own value, and every
slot is free. -/
theorem chrstFollowsItsRule : Obligations.ChrstFollowsItsRule :=
  fun s => ⟨(channelReset s).ret .ok [], rfl, rfl, rfl, rfl, rfl, channelReset_slot_free s, rfl, rfl, rfl, rfl, rfl,
    rfl, rfl, rfl, rfl, rfl, rfl, fun _ => rfl, rfl⟩

/-- Settles O35, from the two cases of entering FATAL (R260). -/
theorem ioerrEntersFatal : Obligations.IoerrEntersFatal :=
  fun _ => ⟨fun hfatal => congrArg Host.Outcome.next (raiseFatal_fatal hfatal),
    fun hrun => congrArg Host.Outcome.next (raiseFatal_run hrun)⟩

end Sys2Proof.Proofs
end

section
/-!
PROOFS. spec/60_exceptions.md, the laws its statements need: what each instruction answers in FATAL, and what a host
operation whose result is an error leaves.
-/

namespace Sys2Proof.Machine

/-! ### FATAL (R114, R261) -/

theorem State.answers_nil (s : State) : s.answers [] = s := by
  rw [State.answers, List.append_nil]

theorem State.answers_answers (s : State) (os os' : List Output) :
    (s.answers os).answers os' = s.answers (os ++ os') := by
  simp only [State.answers, List.append_assoc]

/-- In FATAL received bytes are discarded, however many there are (R114). -/
theorem receiveBytes_fatal (bs : List Byte) {s : State} (hf : s.fatal = true) : receiveBytes bs s = .ok s := by
  induction bs with
  | nil => rfl
  | cons b bs ih => rw [receiveBytes, receiveByte_fatal hf]; exact ih

/-- The instructions FATAL silences (R261): all that the ports and the transmit arbiter bring, but for POR. -/
def SilentInFatal : Instr → Prop
  | .timeout | .ioerr | .txrt | .rxByte _ | .poll _ | .frameCmd _ _ | .frameCmdRt _ _ | .frameAck _ _
  | .frameMailbox _ _ | .frameRtResult _ _ _ | .frameReserved _ _ _ _ => True
  | _ => False

theorem exec_silentInFatal {i : Instr} {s : State} (hf : s.fatal = true) (hi : SilentInFatal i) :
    exec i s = .next s := by
  cases i with
  | timeout => exact if_pos hf
  | ioerr => exact congrArg Host.Outcome.next (raiseFatal_fatal hf)
  | txrt => exact exec_txrt_disabled (.inl hf)
  | rxByte b => exact congrArg finish (receiveByte_fatal hf)
  | poll | frameCmd | frameCmdRt | frameAck | frameMailbox | frameRtResult | frameReserved =>
    exact congrArg finish (receiveBytes_fatal _ hf)
  | _ => exact hi.elim

/-- Everything RDSH can do (R135): in every mode it only adds its result. -/
theorem execRdsh_next {a n : Half} {s t : State} (h : execRdsh a n s = .next t) :
    t = s.answers [.result [0x02#8]] ∨ ∃ data, t = s.answers [.result (0x00#8 :: data)] := by
  by_cases hout : 16384 < a.toNat + n.toNat
  · rw [execRdsh_outside s hout] at h
    cases h
    exact .inl rfl
  · rw [execRdsh_inside s (Nat.not_lt.mp hout)] at h
    cases h
    exact .inr ⟨_, rfl⟩

/-- In FATAL an instruction other than the two resets adds outputs and changes nothing else. -/
theorem exec_fatal_answers {i : Instr} {s t : State} (hf : s.fatal = true) (hchrst : i ≠ .chrst) (hpor : i ≠ .por)
    (h : exec i s = .next t) : ∃ os, t = s.answers os := by
  by_cases hsilent : SilentInFatal i
  · rw [exec_silentInFatal hf hsilent] at h
    cases h
    exact ⟨[], (State.answers_nil s).symm⟩
  cases i with
  | chrst => exact absurd rfl hchrst
  | por => exact absurd rfl hpor
  | qcmd | readFifo | readAi | writeFifo | writeAi | wr | rd | push =>
    cases h
    exact ⟨_, queueCommand_fatal _ hf⟩
  | flush => cases h; exact ⟨_, flushPending_fatal hf⟩
  | wrsync | rdsync =>
    cases h
    rw [queueCommand_fatal _ hf, flushPending_fatal (s := s.answers _) hf, State.answers_answers]
    exact ⟨_, rfl⟩
  | rdsh =>
    rcases execRdsh_next h with rfl | ⟨data, rfl⟩
    · exact ⟨_, rfl⟩
    · exact ⟨_, rfl⟩
  | rtsub rs => rw [exec_rtsub_fatal rs hf] at h; cases h; exact ⟨_, rfl⟩
  | status | illegal => cases h; exact ⟨_, rfl⟩
  | _ => exact absurd trivial hsilent

/-! ### Error results (R250, R269) -/

/-- If `t` ends with a result whose code is not OK, that result has no data and is all `t` adds to `s`. -/
def ErrorAddsOnlyResult (s t : State) : Prop :=
  ∀ (c : Byte) (d : List Byte), t.history.getLast? = some (.result (c :: d)) → c ≠ 0x00#8 →
    d = [] ∧ t = s.answers [.result [c]]

theorem State.answers_getLast? (s : State) (o : Output) : (s.answers [o]).history.getLast? = some o :=
  List.getLast?_concat

/-- A lone result, of whatever code. -/
theorem errorAddsOnlyResult_answers (s : State) (x : Byte) : ErrorAddsOnlyResult s (s.answers [.result [x]]) := by
  intro c d hlast _
  rw [State.answers_getLast?] at hlast
  cases hlast
  exact ⟨rfl, rfl⟩

/-- An operation that ends with OK may have written anything. -/
theorem errorAddsOnlyResult_ok (s u : State) (data : List Byte) :
    ErrorAddsOnlyResult s (u.answers [.result (0x00#8 :: data)]) := by
  intro c d hlast hc
  rw [State.answers_getLast?] at hlast
  cases hlast
  exact absurd rfl hc

theorem queueCommand_errorAddsOnlyResult (r : Request) (s : State) : ErrorAddsOnlyResult s (queueCommand r s) := by
  rcases queueCommand_cases r s with ⟨-, h⟩ | ⟨-, -, h⟩ | ⟨-, -, -, h⟩ | ⟨-, -, -, h⟩ | ⟨-, -, -, -, -, h⟩
    | ⟨-, -, -, -, q, u, -, h⟩ <;> rw [h]
  · exact errorAddsOnlyResult_answers s _
  · exact errorAddsOnlyResult_answers s _
  · exact errorAddsOnlyResult_answers s _
  · exact errorAddsOnlyResult_ok s _ _
  · exact errorAddsOnlyResult_answers s _
  · exact errorAddsOnlyResult_ok s _ _

theorem flushPending_errorAddsOnlyResult (s : State) : ErrorAddsOnlyResult s (flushPending s) := by
  rcases flushPending_cases s with ⟨-, h⟩ | ⟨-, -, h⟩ | ⟨-, -, -, h⟩ | ⟨-, -, q, u, -, h⟩ <;> rw [h]
  · exact errorAddsOnlyResult_answers s _
  · exact errorAddsOnlyResult_answers s _
  · exact errorAddsOnlyResult_answers s _
  · exact errorAddsOnlyResult_ok s _ _

theorem submitRealtime_errorAddsOnlyResult (rs : List Request) (s : State) :
    ErrorAddsOnlyResult s (submitRealtime rs s) := by
  rcases submitRealtime_cases rs s with ⟨-, h⟩ | ⟨-, c, -, h⟩ | ⟨-, p, -, -, h⟩ | ⟨-, p, -, -, h⟩ <;> rw [h]
  · exact errorAddsOnlyResult_answers s _
  · exact errorAddsOnlyResult_answers s _
  · exact errorAddsOnlyResult_answers s _
  · exact errorAddsOnlyResult_ok s { s with rtFrame := _, rtPending := true } []

theorem execRdsh_errorAddsOnlyResult {a n : Half} {s t : State} (h : execRdsh a n s = .next t) :
    ErrorAddsOnlyResult s t := by
  rcases execRdsh_next h with rfl | ⟨data, rfl⟩
  · exact errorAddsOnlyResult_answers s _
  · exact errorAddsOnlyResult_ok s s data

/-- The operations of the host port, each of which ends with one result (R250). -/
def IsHostOperation : Instr → Prop
  | .qcmd _ | .flush | .rdsh _ _ | .rtsub _ | .chrst | .status | .illegal _ => True
  | _ => False

theorem exec_errorAddsOnlyResult {i : Instr} {s t : State} (hi : IsHostOperation i) (h : exec i s = .next t) :
    ErrorAddsOnlyResult s t := by
  cases i with
  | qcmd r => cases h; exact queueCommand_errorAddsOnlyResult r s
  | flush => cases h; exact flushPending_errorAddsOnlyResult s
  | rdsh => exact execRdsh_errorAddsOnlyResult h
  | rtsub rs => cases h; exact submitRealtime_errorAddsOnlyResult rs s
  | chrst => cases h; exact errorAddsOnlyResult_ok s (channelReset s) []
  | status => cases h; exact errorAddsOnlyResult_ok s s _
  | illegal => cases h; exact errorAddsOnlyResult_answers s _
  | _ => exact hi.elim

end Sys2Proof.Machine
end

section
/-!
PROOFS. spec/60_exceptions.md, its obligations.
-/

namespace Sys2Proof.Proofs

open Sys2Proof.Machine

/-- Settles O21: outputs touch neither the mode nor the cause, and both resets write the mode. -/
theorem onlyResetsLeaveFatal : Obligations.OnlyResetsLeaveFatal := by
  refine ⟨fun s t i hf hchrst hpor h => ?_, fun s => ⟨(channelReset s).ret .ok [], powerOnReset s, rfl, rfl, rfl, rfl⟩⟩
  obtain ⟨os, rfl⟩ := exec_fatal_answers hf hchrst hpor h
  exact ⟨hf, rfl⟩

/-- Settles O22: each of these instructions tests the mode first. -/
theorem portEventsDoNothingInFatal : Obligations.PortEventsDoNothingInFatal :=
  fun _ _ hf hi => exec_silentInFatal hf hi

/-- Settles O23: every result but OK is given before the operation writes anything. -/
theorem errorResultsChangeNothing : Obligations.ErrorResultsChangeNothing :=
  fun _ _ _ c d hi h => exec_errorAddsOnlyResult hi h c d

end Sys2Proof.Proofs
end

section
/-!
PROOFS. spec/70_reset_and_hazards.md, the laws its statements need: what the two resets and the power-on state have
in common (R282), and the shadow after power-on (R280).
-/

namespace Sys2Proof.Machine

/-- R282's initial mode: RUN at a frame boundary, nothing outstanding, no pending record, no realtime frame. -/
def BlockReady (s : State) : Prop :=
  RxReady s ∧ window s = 0 ∧ s.pendBytes = [] ∧ s.rtPending = false

/-- Outputs are no part of R282's mode. -/
theorem BlockReady.answers {s : State} (h : BlockReady s) (os : List Output) : BlockReady (s.answers os) := h

theorem channelReset_blockReady (s : State) : BlockReady (channelReset s) :=
  ⟨⟨rfl, rfl, rfl, rfl⟩, channelReset_window s, rfl, rfl⟩

/-- POR ends with the channel reset (R280). -/
theorem powerOnReset_blockReady (s : State) : BlockReady (powerOnReset s) := channelReset_blockReady _

theorem reset_blockReady : BlockReady State.reset :=
  ⟨⟨rfl, rfl, rfl, rfl⟩, dist_self Config.initSeq, rfl, rfl⟩

/-- R280: the shadow holds 0x00 at every address, the empty memory being all zero. -/
theorem powerOnReset_shadow_read (s : State) (a : Nat) : (powerOnReset s).shadow.read a = 0x00#8 := rfl

theorem powerOnReset_slot_free (s : State) (k : Fin Config.storeSize) : (powerOnReset s).store[k].occupied = false :=
  channelReset_slot_free _ k

end Sys2Proof.Machine
end

section
/-!
PROOFS. spec/70_reset_and_hazards.md, its obligations.
-/

namespace Sys2Proof.Proofs

open Sys2Proof.Machine

/-- Settles O37: POR answers the power-on reset and adds no output; besides the store and the shadow, every field is
a value the reset writes. -/
theorem porFollowsItsRule : Obligations.PorFollowsItsRule :=
  fun s => ⟨powerOnReset s, rfl, rfl, rfl, rfl, rfl, powerOnReset_slot_free s, rfl, rfl, rfl, rfl, rfl, rfl, rfl,
    rfl, rfl, rfl, rfl, powerOnReset_shadow_read s, powerOnReset_history s⟩

/-- Settles O38: CHRST is the channel reset and a result, POR a channel reset too. -/
theorem resetsLeaveTheBlockReady : Obligations.ResetsLeaveTheBlockReady := by
  refine ⟨fun s t i hi h => ?_, reset_blockReady⟩
  rcases hi with rfl | rfl
  · cases h
    exact (channelReset_blockReady s).answers _
  · cases h
    exact powerOnReset_blockReady s

end Sys2Proof.Proofs
end
